-- ==== Sys2Proof/Word.lean ====
section
/-! DEFINITION. The word types of the block's ports and registers (00_scope.md R6, R9, R14;
30_encoding.md R76, R79, R82). -/

namespace Sys2Proof

/-- One stored element, one received element, the terminator (R6). -/
abbrev Byte := BitVec 8

/-- `ARG` of a command and `VAL` of a response (R9). -/
abbrev Word16 := BitVec 16

/-- A command word `CMD24` (R76) or a response word `RSP24` (R79). -/
abbrev Word24 := BitVec 24

/-- An event word `EVT9` of the producer port (R82). -/
abbrev Word9 := BitVec 9

end Sys2Proof
end

