-- ==== Sys2Proof/Machine/Operands.lean ====
section
/-! DEFINITION. The operand forms of a command's `ARG` (30_encoding.md R77), each with the field an
assembler writes for it (R84), and the index arithmetic of the ring (00_scope.md R16;
40_ring_buffer.md R107). -/

namespace Sys2Proof.Machine

/-- Operand form `n16`: `ARG[15:0]` as an unsigned number (R77). -/
def argN16 (arg : Word16) : Nat := arg.toNat

/-- Operand form `b8`: the byte `ARG[7:0]` (R77). -/
def argB8 (arg : Word16) : Byte := arg.extractLsb' 0 8

/-- Operand form `f1`: the flag `ARG[0]` (R77). -/
def argF1 (arg : Word16) : Bool := arg.getLsbD 0

/-- The `ARG` an assembler writes for a number operand. -/
def n16Arg (n : Nat) : Word16 := BitVec.ofNat 16 n

/-- The `ARG` an assembler writes for a byte operand: the ignored bits are 0 (R84). -/
def b8Arg (b : Byte) : Word16 := 0#8 ++ b

/-- The `ARG` an assembler writes for a flag operand: the ignored bits are 0 (R84). -/
def f1Arg (f : Bool) : Word16 := 0#15 ++ BitVec.ofBool f

/-- `inc_mod` (R16) for a ring of `c` slots. -/
def incMod (c i : Nat) : Nat := if i = c - 1 then 0 else i + 1

/-- `add_mod` (R16) for a ring of `c` slots. -/
def addMod (c i k : Nat) : Nat := if c ≤ i + k then i + k - c else i + k

end Sys2Proof.Machine
end

