-- ==== Sys2Proof/Syntax.lean ====
section
/-! DEFINITION. The operations of `RXFIFO-MF/1`: one constructor per row of the opcode table
(30_encoding.md R78, R82). -/

namespace Sys2Proof

/-- The eleven consumer commands (R78) and the producer event (R82). A number operand (`n16`, R77)
is an unsigned number; `Instr.wf` bounds it. -/
inductive Instr where
  /-- `RESUME` (43_channel.md R155). -/
  | resume
  /-- `SUSPEND` (43_channel.md R156). -/
  | suspend
  /-- `CLEAR` (43_channel.md R157). -/
  | clear
  /-- `POP1` (40_ring_buffer.md R106). -/
  | pop1
  /-- `GET n`, n = maxN (43_channel.md R158). -/
  | get (n : Nat)
  /-- `GETMSG n`, n = maxSize (43_channel.md R159). -/
  | getmsg (n : Nat)
  /-- `PUT b` (43_channel.md R160). -/
  | put (b : Byte)
  /-- `GET1 f`, f = blocking (43_channel.md R161). -/
  | get1 (f : Bool)
  /-- `SETEOM b` (41_framing.md R123). -/
  | seteom (b : Byte)
  /-- `SETFRM f` (41_framing.md R124). -/
  | setfrm (f : Bool)
  /-- `RDREG r`, r = register number (43_channel.md R162). -/
  | rdreg (r : Nat)
  /-- `RXEVT`, the producer event (42_receive_source.md R136): no operand of its own, it reads
  `rx_byte` (log 16). -/
  | rxevt
deriving DecidableEq, Repr

end Sys2Proof
end

