-- ==== Sys2Proof/WellFormed.lean ====
section
/-! DEFINITION. Which operations have an encoding: number operands fit `ARG[15:0]`
(00_scope.md R9; 30_encoding.md R77). -/

namespace Sys2Proof

/-- A number operand fits the 16 bits of `ARG` (R9: "range 0 to 65535"). -/
def fitsArg (n : Nat) : Bool := decide (n < 65536)

/-- `i` has an encoding. Byte and flag operands fit by their types; only `n16` operands are
checked. -/
def Instr.wf : Instr → Bool
  | .resume => true
  | .suspend => true
  | .clear => true
  | .pop1 => true
  | .get n => fitsArg n
  | .getmsg n => fitsArg n
  | .put _ => true
  | .get1 _ => true
  | .seteom _ => true
  | .setfrm _ => true
  | .rdreg r => fitsArg r
  | .rxevt => true

end Sys2Proof
end

