-- ==== Sys2Proof/Decode.lean ====
section
/-! DEFINITION. Decoding of the two port formats, `CMD24` (30_encoding.md R76 to R78) and `EVT9`
(R82), total and rejecting by name (R83, R85), and the encoder of the same tables. -/

namespace Sys2Proof

/-- A word as a port presents it: whole, on its port's wires (20_memory.md R52). -/
inductive PortWord where
  /-- A command word on the consumer port (R76). -/
  | cmd (w : Word24)
  /-- The event word on the producer port (R82). -/
  | evt (w : Word9)
deriving DecidableEq, Repr

/-- Why a word selects no operation. -/
inductive DecodeError where
  /-- `OPC` 0x00 or 0x0C to 0xFF (R83): the block answers ILLEGAL. -/
  | reservedOpcode (opc : Nat)
  /-- `EVT9` with bit 8 clear (R82): nothing is pending. -/
  | nothingPending
deriving DecidableEq, Repr

/-- `OPC`, bits 23:16 of a command word (R76). -/
def cmdOpc (w : Word24) : BitVec 8 := w.extractLsb' 16 8

/-- `ARG`, bits 15:0 of a command word (R76). -/
def cmdArg (w : Word24) : Word16 := w.extractLsb' 0 16

/-- The opcode map of R78, with the operand taken from `ARG` as R77 says. -/
def decodeCmd (w : Word24) : Except DecodeError Instr :=
  match (cmdOpc w).toNat with
  | 0x01 => .ok .resume
  | 0x02 => .ok .suspend
  | 0x03 => .ok .clear
  | 0x04 => .ok .pop1
  | 0x05 => .ok (.get (Machine.argN16 (cmdArg w)))
  | 0x06 => .ok (.getmsg (Machine.argN16 (cmdArg w)))
  | 0x07 => .ok (.put (Machine.argB8 (cmdArg w)))
  | 0x08 => .ok (.get1 (Machine.argF1 (cmdArg w)))
  | 0x09 => .ok (.seteom (Machine.argB8 (cmdArg w)))
  | 0x0A => .ok (.setfrm (Machine.argF1 (cmdArg w)))
  | 0x0B => .ok (.rdreg (Machine.argN16 (cmdArg w)))
  | opc => .error (.reservedOpcode opc)

/-- The producer port's format (R82): bit 8 set is the pending receive event. The byte in bits 7:0
is `rx_byte` itself, which RXEVT reads from the receive register (log 16). -/
def decodeEvt (w : Word9) : Except DecodeError Instr :=
  if w.getLsbD 8 then .ok .rxevt else .error .nothingPending

/-- The decoder: every word of either port is an operation or rejected by name (R85). -/
def decode : PortWord → Except DecodeError Instr
  | .cmd w => decodeCmd w
  | .evt w => decodeEvt w

/-- The command word of an operation code and an argument (R76). -/
def cmdWord (opc : BitVec 8) (arg : Word16) : PortWord := .cmd (opc ++ arg)

/-- The encoder, with every ignored bit 0 (R84). The event word of RXEVT is the pending event with
byte bits 0: the byte is the environment's (R82). -/
def encode : Instr → PortWord
  | .resume => cmdWord 0x01#8 0#16
  | .suspend => cmdWord 0x02#8 0#16
  | .clear => cmdWord 0x03#8 0#16
  | .pop1 => cmdWord 0x04#8 0#16
  | .get n => cmdWord 0x05#8 (Machine.n16Arg n)
  | .getmsg n => cmdWord 0x06#8 (Machine.n16Arg n)
  | .put b => cmdWord 0x07#8 (Machine.b8Arg b)
  | .get1 f => cmdWord 0x08#8 (Machine.f1Arg f)
  | .seteom b => cmdWord 0x09#8 (Machine.b8Arg b)
  | .setfrm f => cmdWord 0x0A#8 (Machine.f1Arg f)
  | .rdreg r => cmdWord 0x0B#8 (Machine.n16Arg r)
  | .rxevt => .evt (0x100#9)

/-- A row's word as the port it belongs to presents it: 24 bits for a command; up to 16 bits for
the 9 wires of the producer port, where the bits above bit 8 are no wires (log 16). -/
def portWordOf (nbits w : Nat) : Option PortWord :=
  if nbits = 24 then some (.cmd (BitVec.ofNat 24 w))
  else if nbits = 9 ∨ nbits = 16 then some (.evt (BitVec.ofNat 9 w))
  else none

/-- The instruction the decoder reads from a word of the opcode table. -/
def decodeTableWord (nbits w : Nat) : Option Instr :=
  match portWordOf nbits w with
  | none => none
  | some p =>
    match decode p with
    | .ok i => some i
    | .error _ => none

end Sys2Proof
end

