-- ==== Sys2Proof/Config.lean ====
section
/-! DEFINITION. What an instance is built with (00_scope.md section 3, R5 to R12) and the free
values of the model. -/

namespace Sys2Proof

/-- `OVERSIZE_POLICY` (R11): what GETMSG does when the first terminator lies past its window. -/
inductive OversizePolicy where
  /-- Remove nothing (40_ring_buffer.md R103); the default. -/
  | keep
  /-- Discard up to and including that terminator (40_ring_buffer.md R104). -/
  | drop
deriving DecidableEq, Repr

/-- `LD_OVERRUN` (42_receive_source.md R143), left OPEN by the spec: what the Line Driver does when
a byte arrives while an earlier one is still unread. -/
inductive LdOverrun where
  /-- The new byte is lost. -/
  | newByteLost
  /-- The new byte replaces the waiting one. -/
  | newByteReplaces
  /-- Each overrun is a free choice between the two (DESIGN CHOICE, log 8). -/
  | either
deriving DecidableEq, Repr

/-- A pair of `LD_BAUD` and `LD_FORMAT` (R12), opaque to every rule. -/
structure LdSetting where
  baud : Nat
  format : Nat
deriving DecidableEq, Repr

/-- The configuration record of one instance (00_scope.md section 3). No step changes it. An instance
with a capacity outside 1 to 65535 (R5) or a pair that the Line Driver does not support (R12;
60_exceptions.md R191) does not exist: the record carries the proofs of both (log 7). -/
structure Config where
  /-- `C`, the ring capacity in bytes (R5). -/
  capacity : Nat
  capacity_pos : 0 < capacity := by decide
  capacity_le : capacity ≤ 65535 := by decide
  /-- `MW`, the width of the pending-message counter (R8). -/
  msgWidth : Nat := 16
  /-- `OVERSIZE_POLICY` (R11). -/
  oversize : OversizePolicy := .keep
  /-- `EOM_DEFAULT`, the terminator after reset (R10). -/
  eomDefault : Byte := 0x0A#8
  /-- `FRM_EN_RESET`, the framing enabled flag after reset (10_state.md R39). -/
  frmEnReset : Bool := true
  /-- The Line Driver's "fixed table of supported clock/rate combinations" (60_exceptions.md R191,
  R204). Its entries are in no source, so it is any list (log 7). -/
  ldTable : List LdSetting
  /-- `LD_BAUD`, `LD_FORMAT` (R12). -/
  ldSetting : LdSetting
  /-- The validity premise of R12 and R191: the pair is in the table. -/
  ld_supported : ldSetting ∈ ldTable := by decide
  /-- `LD_OVERRUN` (R143). -/
  ldOverrun : LdOverrun := .either
deriving DecidableEq, Repr

namespace Config

/-- The configuration of `State.reset`: the spec's defaults; the capacity 8, the Line Driver
setting and its table are a DESIGN CHOICE (log 6). -/
def standard : Config :=
  { capacity := 8, ldTable := [{ baud := 0, format := 0 }],
    ldSetting := { baud := 0, format := 0 } }

/-- Building an instance of `c` bytes for a Line Driver with the table `table`, all else at the
spec's defaults: none where the capacity or the pair is not valid, the fatal error of
60_exceptions.md R191 (a), "detected at build/startup". -/
def build (c : Nat) (table : List LdSetting) (setting : LdSetting) : Option Config :=
  if h : (0 < c ∧ c ≤ 65535) ∧ setting ∈ table then
    some
      { capacity := c, capacity_pos := h.1.1, capacity_le := h.1.2,
        ldTable := table, ldSetting := setting, ld_supported := h.2 }
  else none

/-- The top of the range of `msgs`: `2^MW - 1` (R8, 41_framing.md R125). -/
def msgMax (cfg : Config) : Nat := 2 ^ cfg.msgWidth - 1

/-- `IW`, the width of `head` and `tail` (R7). -/
def indexWidth (cfg : Config) : Nat := max 1 (Nat.clog 2 cfg.capacity)

/-- `CNTW`, the width of `count` (R7). -/
def countWidth (cfg : Config) : Nat := Nat.clog 2 (cfg.capacity + 1)

/-- The free values of LD_OVERRUN left open (R143): whether the n-th overrun of a run replaces the
waiting byte. It has no body, so nothing can be proved of a single one (log 8). -/
opaque freeOverrun : Nat → Bool

end Config

end Sys2Proof
end

