-- ==== Sys2Proof/Machine/State.lean ====
section
/-! DEFINITION. The state of one instance (10_state.md R20), what its ports carry between steps
(30_encoding.md R75, R88), the model's schedule of agent turns, and the reset state (R39). -/

namespace Sys2Proof.Machine

/-- The ring's backing storage (10_state.md R21): the slots something has written, addresses
strictly rising. A slot that is not listed has no value (R39; log 9). -/
abbrev Memory := List Host.Cell

/-- Which agent takes the next step (00_scope.md R13), with what the environment brings. -/
inductive Turn where
  /-- The consumer: the held command, or the next one offered. -/
  | consumer
  /-- The Asynchronous Receive Source: the pending receive event, if there is one. -/
  | producer
  /-- The Line Driver receive side: ARRIVE(b) (42_receive_source.md R135). -/
  | arrive (b : Byte)
  /-- The Line Driver transmit side: it drives `tx_free` (43_channel.md R160). -/
  | txFree (v : Bool)
deriving DecidableEq, Repr

/-- What the block drives in one step (R75): strobes with the values they carry. -/
structure Outputs where
  /-- `rsp_valid` with `rsp_word` (R79). -/
  rsp : Option Word24 := none
  /-- `dat_valid` with the bytes `DATA[0], DATA[1], ...` in order (R81). -/
  dat : List Byte := []
  /-- `rx_rd`: the receive register is read in this step. -/
  rxRd : Bool := false
  /-- `ld_cfg` with `configure(LD_BAUD, LD_FORMAT)`. -/
  ldCfg : Option LdSetting := none
  /-- `tx_wr` with `tx_byte`. -/
  tx : Option Byte := none
  /-- `push_fail`: the push of this RXEVT was rejected (R89). -/
  pushFail : Bool := false
deriving DecidableEq, Repr

/-- The state between two steps. -/
structure State where
  /-- What the instance was built with; no step changes it. -/
  cfg : Config
  /-- `mem` (R21). -/
  mem : Memory
  /-- `head`, index of the oldest byte (R22). -/
  head : Nat
  /-- `tail`, index of the next free slot (R23). -/
  tail : Nat
  /-- `count`, number of occupied slots (R24). -/
  count : Nat
  /-- `eom`, the terminator (R27). -/
  eom : Byte
  /-- `frm_en`, framing enabled (R28). -/
  frmEn : Bool
  /-- `msgs`, the pending-message counter (R29). -/
  msgs : Nat
  /-- `active`: Suspended (false) or Active (true) (R31). -/
  active : Bool
  /-- `rx_rdy`, the Line Driver's data-ready condition (R33). -/
  rxRdy : Bool
  /-- `rx_byte`, the Line Driver's receive register (R33). -/
  rxByte : Byte
  /-- `tx_free`, the input pin that says the transmit register is empty (R75, R160). -/
  txFree : Bool
  /-- The command the block has taken and not yet answered (R88). -/
  held : Option Word24
  /-- The command words the consumer will offer, in issue order (R88). -/
  cmds : List Word24
  /-- The model's own: the turns to come (log 1). -/
  turns : List Turn
  /-- The model's own: how many free values the run has drawn (log 8). -/
  draws : Nat
  /-- What the latest step drove (log 13). -/
  out : Outputs
deriving DecidableEq, Repr

/-- The reasons the MODEL stops. The spec has no fault (20_memory.md R54, 60_exceptions.md R190):
both lie in states that no run reaches (log 9). -/
inductive Fault where
  /-- A pop reads a ring slot nothing has written. Raised by POP1, GET and GETMSG. Safe. -/
  | unwrittenSlot (slot : Nat)
  /-- A ring access at an index that is not in `[0, C)`. Raised by POP1, GET, GETMSG and RXEVT.
  Safe. -/
  | slotOutOfRange (slot : Nat)
deriving DecidableEq, Repr

/-- The reasons the model refuses. -/
inductive Refusal where
  /-- An instruction without a meaning, raised by `exec` only; no arm raises it. Safe. -/
  | notModelled (mnemonic : String)
deriving DecidableEq, Repr

/-- Reset of an instance built with `cfg` (R39; 70_reset_and_hazards.md R220). The spec gives
`active`, `eom`, `frm_en`, `head`, `tail`, `count`, `msgs`, `rx_rdy`; `rx_byte` and `tx_free` are a
DESIGN CHOICE (log 10, log 11); nothing is offered, held, scheduled or driven. -/
def State.resetWith (cfg : Config) : State where
  cfg := cfg
  mem := []
  head := 0
  tail := 0
  count := 0
  eom := cfg.eomDefault
  frmEn := cfg.frmEnReset
  msgs := 0
  active := false
  rxRdy := false
  rxByte := 0x00#8
  txFree := false
  held := none
  cmds := []
  turns := []
  draws := 0
  out := {}

/-- The machine right after reset, in the standard configuration (log 6). -/
def State.reset : State := State.resetWith Config.standard

end Sys2Proof.Machine
end

