-- ==== Sys2Proof/Machine/Flags.lean ====
section
/-! DEFINITION. Every condition computed from the state: the flags of 10_state.md R35, the enables
of R32, the event request of 42_receive_source.md R137, the pins of 30_encoding.md R89, the
terminator comparator (40_ring_buffer.md R108), the counter's saturating arithmetic (41_framing.md
R125) and the numbered status registers (10_state.md R40). -/

namespace Sys2Proof.Machine

/-- `EMPTY = (count = 0)` (R35). -/
def State.isEmpty (s : State) : Bool := decide (s.count = 0)

/-- `FULL = (count = C)` (R35). -/
def State.isFull (s : State) : Bool := decide (s.count = s.cfg.capacity)

/-- `MSGAVL = (msgs != 0)` (R35). -/
def State.msgAvl (s : State) : Bool := decide (s.msgs ≠ 0)

/-- `ld_tx_en` (R32). -/
def State.ldTxEn (s : State) : Bool := s.active

/-- `ld_rx_en` (R32). -/
def State.ldRxEn (s : State) : Bool := s.active

/-- `ld_rxie`: between steps `pause` is 0, so it equals `active` (R32, R34; log 14). -/
def State.ldRxie (s : State) : Bool := s.active

/-- `evt_req`: the receive event is pending and enabled (R137). -/
def State.evtReq (s : State) : Bool := s.rxRdy && s.ldRxie

/-- `cmd_ready`: the consumer port can take a command word (R75, R88). -/
def State.cmdReady (s : State) : Bool := s.held.isNone

/-- `cmd_valid`: a command word is offered (R75). -/
def State.cmdValid (s : State) : Bool := !s.cmds.isEmpty

/-- Pin `empty` (R89). -/
def State.emptyPin (s : State) : Bool := s.isEmpty

/-- Pin `full` (R89). -/
def State.fullPin (s : State) : Bool := s.isFull

/-- Pin `msg_avail` (R89). -/
def State.msgAvailPin (s : State) : Bool := s.msgAvl

/-- Pin `push_fail` (R89): a strobe of the step that was taken last. -/
def State.pushFailPin (s : State) : Bool := s.out.pushFail

/-- No byte waits and no command awaits its response (70_reset_and_hazards.md R238). -/
def State.quiescent (s : State) : Bool := !s.rxRdy && s.held.isNone

/-- The terminator comparator: equality of all eight bits (R108). -/
def isTerm (b term : Byte) : Bool := decide (b = term)

/-- `sat_inc` for a counter whose greatest value is `top` (00_scope.md R16, R125). -/
def satInc (top m : Nat) : Nat := if m = top then m else m + 1

/-- `sat_dec` (00_scope.md R16, R125). -/
def satDec (m : Nat) : Nat := if m = 0 then 0 else m - 1

/-- `x[0]`, STATUS: bit 0 ACTIVE, 1 EMPTY, 2 FULL, 3 MSGAVL, 4 FRM_EN, 15:5 zero (R40). -/
def State.statusReg (s : State) : Word16 :=
  0#11 ++ BitVec.ofBool s.frmEn ++ BitVec.ofBool s.msgAvl ++ BitVec.ofBool s.isFull
    ++ BitVec.ofBool s.isEmpty ++ BitVec.ofBool s.active

/-- `x[1]`, COUNT: `zext_16(count)` (R40). -/
def State.countReg (s : State) : Word16 := BitVec.ofNat 16 s.count

/-- `x[2]`, MSGS: `zext_16(msgs)`, or `min(msgs, 65535)` for a wider counter (R40). -/
def State.msgsReg (s : State) : Word16 :=
  if s.cfg.msgWidth ≤ 16 then BitVec.ofNat 16 s.msgs else BitVec.ofNat 16 (min s.msgs 65535)

/-- `x[3]`, EOM: `zext_16(eom)` (R40). -/
def State.eomReg (s : State) : Word16 := s.eom.setWidth 16

/-- `x[4]`, CAP: the constant `C` (R40). -/
def State.capReg (s : State) : Word16 := BitVec.ofNat 16 s.cfg.capacity

/-- `x[r]` (R40); none for a reserved register number. -/
def State.readReg (s : State) (r : Nat) : Option Word16 :=
  match r with
  | 0 => some s.statusReg
  | 1 => some s.countReg
  | 2 => some s.msgsReg
  | 3 => some s.eomReg
  | 4 => some s.capReg
  | _ => none

end Sys2Proof.Machine
end

