-- ==== Sys2Proof/Machine/Memory.lean ====
section
/-! DEFINITION. Reading and writing one slot of the ring's storage (20_memory.md R51), and the
canonical form of the stored list. -/

namespace Sys2Proof.Machine

/-- What a slot reads as that nothing has written: no value (10_state.md R39 gives `mem[i]` none;
log 9). -/
def Memory.unlisted : Option Byte := none

/-- The byte in slot `a`. -/
def Memory.read : Memory → Nat → Option Byte
  | [], _ => Memory.unlisted
  | (a', b) :: m, a => if a' = a then some b else Memory.read m a

/-- Store `b` in slot `a`, keeping the addresses strictly rising. No byte equals what an unlisted
slot reads as, so no write removes an entry. -/
def Memory.write : Memory → Nat → Byte → Memory
  | [], a, b => [(a, b)]
  | (a', b') :: m, a, b =>
    if a < a' then (a, b) :: (a', b') :: m
    else if a = a' then (a, b) :: m
    else (a', b') :: Memory.write m a b

/-- The canonical form: addresses strictly rising. -/
abbrev Memory.wf (m : Memory) : Prop := m.Pairwise (fun x y => x.1 < y.1)

/-- Every listed slot lies in the ring index space `[0, c)` (20_memory.md R50, R54). -/
abbrev Memory.within (m : Memory) (c : Nat) : Prop := ∀ x ∈ m, x.1 < c

end Sys2Proof.Machine
end

