-- ==== Sys2Proof/Machine/Ops.lean ====
section
/-! DEFINITION. The shared operations: responses (30_encoding.md R79 to R81), the consumer port
(R88), slot accesses, the ring primitives `rb_*` (40_ring_buffer.md R100 to R105), the framing
primitives `fs_*` (41_framing.md R120 to R122), the service of the receive event (42_receive_source.md
R136) and the environment's steps. The spec has no exception to take and none to return from
(60_exceptions.md R190, R199, R200): the service of the receive event is what stands in their
place. -/

namespace Sys2Proof.Machine

/-! ### Responses -/

/-- The status codes (30_encoding.md R80). -/
inductive Status where
  | ok
  | nodata
  | nomsg
  | notactive
  | notsusp
  | illegal
deriving DecidableEq, Repr

/-- The code of a status (R80). -/
def statusCode : Status → BitVec 8
  | .ok => 0x00#8
  | .nodata => 0x01#8
  | .nomsg => 0x02#8
  | .notactive => 0x03#8
  | .notsusp => 0x04#8
  | .illegal => 0x05#8

/-- The response word `RSP24 = {STATUS, VAL}` (R79). -/
def rspWord (st : Status) (val : Word16) : Word24 := statusCode st ++ val

/-- End a step: `o` is all that the block drives in it. -/
def State.emit (o : Outputs) (s : State) : State := { s with out := o }

/-- `respond(STATUS, VAL, DATA)` (00_scope.md R15): the `DATA` bytes and one response word; the
consumer port is free again (R88). `o` holds the other strobes of the step. -/
def State.respondWith (o : Outputs) (st : Status) (val : Word16) (data : List Byte) (s : State) :
    State :=
  { s with held := none, out := { o with rsp := some (rspWord st val), dat := data } }

/-- `respond(STATUS, VAL, DATA)` in a step with no other strobe. -/
def State.respond (st : Status) (val : Word16) (data : List Byte) (s : State) : State :=
  s.respondWith {} st val data

/-- The consumer's buffer after the `DATA` bytes of a response (20_memory.md R66): they fill it from
offset 0, and the offsets from `k` on are not written. For a buffer shorter than `DATA`, on which the
spec is silent (93_implementation_defined.md U18), it is all of `DATA` (DESIGN CHOICE, log 23). -/
def bufferAfter (buf data : List Byte) : List Byte := data ++ buf.drop data.length

/-- A command whose step is not enabled yet: the port stays occupied and nothing is answered
(R88; log 15). -/
def State.wait (s : State) : State := s.emit {}

/-- A turn in which the agent has no enabled step (log 5). -/
def State.idle (s : State) : State := s.emit {}

/-! ### Slots of the ring -/

/-- `mem[i]` (00_scope.md R15). -/
def readSlot (s : State) (i : Nat) : Except Fault Byte :=
  if i < s.cfg.capacity then
    match s.mem.read i with
    | some b => .ok b
    | none => .error (.unwrittenSlot i)
  else .error (.slotOutOfRange i)

/-- `mem[i] <- b` (00_scope.md R15). -/
def writeSlot (s : State) (i : Nat) (b : Byte) : Except Fault State :=
  if i < s.cfg.capacity then .ok { s with mem := s.mem.write i b }
  else .error (.slotOutOfRange i)

/-- `q(i) = mem[add_mod(head, i)]` (00_scope.md R16). -/
def readQ (s : State) (i : Nat) : Except Fault Byte :=
  readSlot s (addMod s.cfg.capacity s.head i)

/-- The bytes `q(i), ..., q(i + k - 1)`, in order. -/
def readRun (s : State) : (i k : Nat) → Except Fault (List Byte)
  | _, 0 => .ok []
  | i, k + 1 =>
    match readQ s i with
    | .error f => .error f
    | .ok b =>
      match readRun s (i + 1) k with
      | .error f => .error f
      | .ok bs => .ok (b :: bs)

/-- The least `j` with `i <= j < i + n` and `q(j) = term`, if there is one. -/
def scanTerm (s : State) (term : Byte) : (i n : Nat) → Except Fault (Option Nat)
  | _, 0 => .ok none
  | i, n + 1 =>
    match readQ s i with
    | .error f => .error f
    | .ok b => if isTerm b term then .ok (some i) else scanTerm s term (i + 1) n

/-! ### Ring primitives -/

/-- Remove the `k` oldest bytes: `head <- add_mod(head, k)`, `count <- count - k`. -/
def State.dropOldest (k : Nat) (s : State) : State :=
  { s with head := addMod s.cfg.capacity s.head k, count := s.count - k }

/-- `rb_push(b) -> ok` (R100): a full ring rejects the byte and nothing changes. -/
def rbPush (b : Byte) (s : State) : Except Fault (Bool × State) :=
  if s.count = s.cfg.capacity then .ok (false, s)
  else
    match writeSlot s s.tail b with
    | .error f => .error f
    | .ok s1 => .ok (true, { s1 with tail := incMod s.cfg.capacity s.tail, count := s.count + 1 })

/-- `rb_pop_one() -> (some, b)` (R101). -/
def rbPopOne (s : State) : Except Fault (Option Byte × State) :=
  if s.count = 0 then .ok (none, s)
  else
    match readSlot s s.head with
    | .error f => .error f
    | .ok b =>
      .ok (some b, { s with head := incMod s.cfg.capacity s.head, count := s.count - 1 })

/-- `rb_pop_up_to(maxN) -> (k, d)` (R102). -/
def rbPopUpTo (maxN : Nat) (s : State) : Except Fault (Nat × List Byte × State) :=
  let k := min maxN s.count
  match readRun s 0 k with
  | .error f => .error f
  | .ok d => .ok (k, d, s.dropOldest k)

/-- What `rb_pop_until_terminator` reports (R103, R104). -/
inductive PopMsg where
  /-- `found = 1` with `d`; `k` is its length. -/
  | found (d : List Byte)
  /-- `found = 0`; `dropped` as in R104 (always false under KEEP). -/
  | notFound (dropped : Bool)
deriving DecidableEq, Repr

/-- The not-found branch under DROP (R104): discard up to and including the first terminator past
the window of `w` bytes, if there is one. -/
def rbDropOversize (term : Byte) (w : Nat) (s : State) : Except Fault (PopMsg × State) :=
  match scanTerm s term w (s.count - w) with
  | .error f => .error f
  | .ok none => .ok (.notFound false, s)
  | .ok (some p) => .ok (.notFound true, s.dropOldest (p + 1))

/-- `rb_pop_until_terminator(term, maxSize)` (R103 under KEEP, R104 under DROP). -/
def rbPopUntilTerm (term : Byte) (maxSize : Nat) (s : State) : Except Fault (PopMsg × State) :=
  let w := min maxSize s.count
  match scanTerm s term 0 w with
  | .error f => .error f
  | .ok (some p) =>
    match readRun s 0 (p + 1) with
    | .error f => .error f
    | .ok d => .ok (.found d, s.dropOldest (p + 1))
  | .ok none =>
    match s.cfg.oversize with
    | .keep => .ok (.notFound false, s)
    | .drop => rbDropOversize term w s

/-- `rb_clear()` (R105): `mem` is not written. -/
def State.rbClear (s : State) : State := { s with head := 0, tail := 0, count := 0 }

/-! ### Framing primitives -/

/-- `fs_note_byte(b)` (R120). -/
def State.fsNoteByte (b : Byte) (s : State) : State :=
  if s.frmEn && isTerm b s.eom then { s with msgs := satInc s.cfg.msgMax s.msgs } else s

/-- `fs_consume_one_message()` (R121). -/
def State.fsConsume (s : State) : State := { s with msgs := satDec s.msgs }

/-- `fs_reset()` (R122): `eom` and `frm_en` are not written. -/
def State.fsReset (s : State) : State := { s with msgs := 0 }

/-- `rb_clear` with `fs_reset`, as every clearing command does them, in one atomic step that the
producer cannot enter (42_receive_source.md R142; log 14). -/
def State.clearRing (s : State) : State := s.rbClear.fsReset

/-! ### The receive register and the receive event -/

/-- The read of the receive register (10_state.md R33): it clears the data-ready condition and
leaves `rx_byte`. -/
def State.readRx (s : State) : State := { s with rxRdy := false }

/-- The service of the receive event (R136): the byte leaves the receive register, is pushed, and
is counted if it was stored and is the terminator. A rejected byte is gone (R141). -/
def serviceReceiveEvent (s : State) : Except Fault State :=
  match rbPush s.rxByte s.readRx with
  | .error f => .error f
  | .ok (true, s1) => .ok ((s1.fsNoteByte s.rxByte).emit { rxRd := true })
  | .ok (false, s1) => .ok (s1.emit { rxRd := true, pushFail := true })

/-- The collapsed producer step `RX(b)` (R145), for a channel whose consumer issues no GET1: the
push and the count without the receive register. -/
def rxCollapsed (b : Byte) (s : State) : Except Fault State :=
  if s.active then
    match rbPush b s with
    | .error f => .error f
    | .ok (true, s1) => .ok (s1.fsNoteByte b)
    | .ok (false, s1) => .ok s1
  else .ok s

/-! ### The environment's steps -/

/-- Overrun: a byte arrives while one is unread (R143), as LD_OVERRUN says (log 8). -/
def State.overrun (b : Byte) (s : State) : State :=
  match s.cfg.ldOverrun with
  | .newByteLost => s
  | .newByteReplaces => { s with rxByte := b }
  | .either =>
    { s with rxByte := if Config.freeOverrun s.draws then b else s.rxByte, draws := s.draws + 1 }

/-- `ARRIVE(b)` (R135). While Suspended the receiver is off and the byte is lost. -/
def State.arrive (b : Byte) (s : State) : State :=
  if s.active then
    if s.rxRdy then (s.overrun b).emit {}
    else ({ s with rxByte := b, rxRdy := true } : State).emit {}
  else s.idle

/-- The Line Driver drives `tx_free` (43_channel.md R160). -/
def State.lineTxFree (v : Bool) (s : State) : State := ({ s with txFree := v } : State).emit {}

/-! ### Fetch -/

/-- The command the consumer's turn is about (R88): the one the port is busy with, or the next one
offered, which is taken now. -/
def State.takeCommand (s : State) : Option (Word24 × State) :=
  match s.held with
  | some w => some (w, s)
  | none =>
    match s.cmds with
    | [] => none
    | w :: ws => some (w, { s with held := some w, cmds := ws })

/-- The event word on the producer port: `{rx_rdy, rx_byte}` (30_encoding.md R82). -/
def State.eventWord (s : State) : Word9 := BitVec.ofBool s.rxRdy ++ s.rxByte

/-! ### Fault to outcome -/

/-- The outcome of an operation that reads or writes slots. -/
def outcomeOf (r : Except Fault State) : Host.Outcome State Fault Refusal :=
  match r with
  | .ok t => .next t
  | .error f => .fault f

end Sys2Proof.Machine
end

