-- ==== Sys2Proof/Machine/Framing.lean ====
section
/-! DEFINITION. The configuration commands SETEOM and SETFRM (41_framing.md R123, R124), refused by
status while Active (R126). -/

namespace Sys2Proof.Machine

/-- `SETEOM b` (R123). -/
def execSeteom (b : Byte) (s : State) : Host.Outcome State Fault Refusal :=
  if s.active then .next (s.respond .notsusp 0#16 [])
  else .next (({ s with eom := b } : State).respond .ok 0#16 [])

/-- `SETFRM f` (R124). -/
def execSetfrm (f : Bool) (s : State) : Host.Outcome State Fault Refusal :=
  if s.active then .next (s.respond .notsusp 0#16 [])
  else .next (({ s with frmEn := f } : State).respond .ok 0#16 [])

end Sys2Proof.Machine
end

