-- ==== Sys2Proof/Machine/Lifecycle.lean ====
section
/-! DEFINITION. The lifecycle commands RESUME, SUSPEND and CLEAR (43_channel.md R155 to R157,
R164). -/

namespace Sys2Proof.Machine

/-- `RESUME` (R155): clear, configure the Line Driver, drop a pending byte, become Active. -/
def execResume (s : State) : Host.Outcome State Fault Refusal :=
  .next (({ s.clearRing with rxRdy := false, active := true } : State).respondWith
    { ldCfg := some s.cfg.ldSetting } .ok 0#16 [])

/-- `SUSPEND` (R156): become Suspended, drop a pending byte, clear. -/
def execSuspend (s : State) : Host.Outcome State Fault Refusal :=
  .next (({ s with active := false, rxRdy := false } : State).clearRing.respond .ok 0#16 [])

/-- `CLEAR` (R157): `active`, `eom`, `frm_en`, `rx_rdy` and `rx_byte` are untouched. -/
def execClear (s : State) : Host.Outcome State Fault Refusal :=
  .next (s.clearRing.respond .ok 0#16 [])

end Sys2Proof.Machine
end

