-- ==== Sys2Proof/Machine/LineDriver.lean ====
section
/-! DEFINITION. The Line Driver pass-throughs PUT and GET1 (43_channel.md R160, R161), specified by
the contract of 60_exceptions.md R204, each with the Active check of R163. -/

namespace Sys2Proof.Machine

/-- `PUT b` (R160): while the transmit register is not free the command waits. -/
def execPut (b : Byte) (s : State) : Host.Outcome State Fault Refusal :=
  if s.active then
    if s.txFree then .next (s.respondWith { tx := some b } .ok 0#16 [])
    else .next s.wait
  else .next (s.respond .notactive 0#16 [])

/-- `GET1 f` (R161): the byte in the receive register, past the ring; with none ready a blocking
GET1 waits and a non-blocking one answers NODATA. -/
def execGet1 (f : Bool) (s : State) : Host.Outcome State Fault Refusal :=
  if s.active then
    if s.rxRdy then
      .next (s.readRx.respondWith { rxRd := true } .ok (s.rxByte.setWidth 16) [])
    else if f then .next s.wait
    else .next (s.respond .nodata 0#16 [])
  else .next (s.respond .notactive 0#16 [])

end Sys2Proof.Machine
end

