-- ==== Sys2Proof/Machine/ReceiveSource.lean ====
section
/-! DEFINITION. The producer event RXEVT (42_receive_source.md R136) behind its gate (R137). -/

namespace Sys2Proof.Machine

/-- `RXEVT` (R136): enabled exactly when the event request is 1 (R137); otherwise the turn changes
nothing (log 5). -/
def execRxevt (s : State) : Host.Outcome State Fault Refusal :=
  if s.evtReq then outcomeOf (serviceReceiveEvent s) else .next s.idle

end Sys2Proof.Machine
end

