-- ==== Sys2Proof/Machine/RingReaders.lean ====
section
/-! DEFINITION. The ring readers POP1 (40_ring_buffer.md R106), GET (43_channel.md R158) and GETMSG
(R159), each with the Active check of R163. -/

namespace Sys2Proof.Machine

/-- `POP1` (R106). -/
def execPop1 (s : State) : Host.Outcome State Fault Refusal :=
  if s.active then
    outcomeOf <| match rbPopOne s with
      | .error f => .error f
      | .ok (some b, s1) => .ok (s1.respond .ok (b.setWidth 16) [])
      | .ok (none, s1) => .ok (s1.respond .nodata 0#16 [])
  else .next (s.respond .notactive 0#16 [])

/-- `GET n` (R158): `msgs` is never changed. -/
def execGet (n : Nat) (s : State) : Host.Outcome State Fault Refusal :=
  if s.active then
    outcomeOf <| match rbPopUpTo n s with
      | .error f => .error f
      | .ok (k, d, s1) => .ok (s1.respond .ok (BitVec.ofNat 16 k) d)
  else .next (s.respond .notactive 0#16 [])

/-- `GETMSG n` (R159): one decrement per retrieved message, and one per message dropped under
DROP. -/
def execGetmsg (n : Nat) (s : State) : Host.Outcome State Fault Refusal :=
  if s.active then
    outcomeOf <| match rbPopUntilTerm s.eom n s with
      | .error f => .error f
      | .ok (.found d, s1) => .ok (s1.fsConsume.respond .ok (BitVec.ofNat 16 d.length) d)
      | .ok (.notFound true, s1) => .ok (s1.fsConsume.respond .nomsg 0#16 [])
      | .ok (.notFound false, s1) => .ok (s1.respond .nomsg 0#16 [])
  else .next (s.respond .notactive 0#16 [])

end Sys2Proof.Machine
end

