-- ==== Sys2Proof/Machine/StatusRead.lean ====
section
/-! DEFINITION. The status read RDREG (43_channel.md R162). -/

namespace Sys2Proof.Machine

/-- `RDREG r` (R162): a reserved register number is answered ILLEGAL. -/
def execRdreg (r : Nat) (s : State) : Host.Outcome State Fault Refusal :=
  match s.readReg r with
  | some v => .next (s.respond .ok v [])
  | none => .next (s.respond .illegal 0#16 [])

end Sys2Proof.Machine
end

