-- ==== Sys2Proof/Machine/Dispatch.lean ====
section
/-! DEFINITION. One arm per operation. -/

namespace Sys2Proof.Machine

def exec (i : Instr) (s : State) : Host.Outcome State Fault Refusal :=
  match i with
  | .resume => Sys2Proof.Machine.execResume s
  | .suspend => Sys2Proof.Machine.execSuspend s
  | .clear => Sys2Proof.Machine.execClear s
  | .pop1 => Sys2Proof.Machine.execPop1 s
  | .get n => Sys2Proof.Machine.execGet n s
  | .getmsg n => Sys2Proof.Machine.execGetmsg n s
  | .put b => Sys2Proof.Machine.execPut b s
  | .get1 f => Sys2Proof.Machine.execGet1 f s
  | .seteom b => Sys2Proof.Machine.execSeteom b s
  | .setfrm f => Sys2Proof.Machine.execSetfrm f s
  | .rdreg r => Sys2Proof.Machine.execRdreg r s
  | .rxevt => Sys2Proof.Machine.execRxevt s

end Sys2Proof.Machine
end

