-- ==== Sys2Proof/Machine/Turns.lean ====
section
/-! DEFINITION. The turns of the consumer and of the producer: fetch at the agent's port, decode,
execute (30_encoding.md R82, R83, R88). -/

namespace Sys2Proof.Machine

/-- An illegal command word: no state change, ILLEGAL (R83). -/
def State.answerIllegal (s : State) : State := s.respond .illegal 0#16 []

/-- The consumer's turn: one attempt at one command, from decode to response (20_memory.md R56). A
consumer that offers nothing has no step (log 5). -/
def consumerTurn (s : State) : Host.Outcome State Fault Refusal :=
  match s.takeCommand with
  | none => .next s.idle
  | some (w, s1) =>
    match decode (.cmd w) with
    | .ok i => exec i s1
    | .error _ => .next s1.answerIllegal

/-- The producer's turn: the event word of its port (R82); with nothing pending it has no step. -/
def producerTurn (s : State) : Host.Outcome State Fault Refusal :=
  match decode (.evt s.eventWord) with
  | .ok i => exec i s
  | .error _ => .next s.idle

/-- With no turn scheduled the pending receive event goes first, then the consumer (log 2; the
event is then eventually serviced, 42_receive_source.md R144). -/
def unscheduledTurn (s : State) : Host.Outcome State Fault Refusal :=
  if s.evtReq then producerTurn s else consumerTurn s

/-- Place a word at the port it belongs to (log 3): a command word is offered first, at a free
port; an event word is the content of the receive register of an Active channel. -/
def State.placeWord (s : State) (nbits w : Nat) : State :=
  match portWordOf nbits w with
  | some (.cmd c) => { s with held := none, cmds := c :: s.cmds, turns := .consumer :: s.turns }
  | some (.evt e) =>
    { s with
      rxRdy := e.getLsbD 8
      rxByte := e.extractLsb' 0 8
      active := true
      turns := .producer :: s.turns }
  | none => s

end Sys2Proof.Machine
end

