-- ==== Sys2Proof/Machine/Step.lean ====
section
/-! DEFINITION. One step: the agent whose turn it is acts (00_scope.md R13, 20_memory.md R57). -/

namespace Sys2Proof.Machine

/-- The first turn of the schedule is used up and its agent acts; with none scheduled the default
of `unscheduledTurn` holds. -/
def step (s : State) : Host.Outcome State Fault Refusal :=
  match s.turns with
  | [] => unscheduledTurn s
  | .consumer :: ts => consumerTurn { s with turns := ts }
  | .producer :: ts => producerTurn { s with turns := ts }
  | .arrive b :: ts => .next (({ s with turns := ts } : State).arrive b)
  | .txFree v :: ts => .next (({ s with turns := ts } : State).lineTxFree v)

/-- `s` with the word `w` stored where the next step fetches it (log 3). -/
def State.withFetchWord (s : State) (nbits w : Nat) : State := s.placeWord nbits w

end Sys2Proof.Machine
end

