-- ==== Sys2Proof/Safety.lean ====
section
/-! DEFINITION. The terms in which claims are made: the ring's abstract content (10_state.md R25),
the invariant of the reachable states (R25, R26, R41), the relation of the counter to the ring
(R30), what the next step runs, and the bytes a run accepts and delivers (20_memory.md R58). -/

namespace Sys2Proof.Machine

/-! ### The abstract content -/

/-- `q(i) = mem[add_mod(head, i)]` (00_scope.md R16). -/
def State.q (s : State) (i : Nat) : Option Byte := s.mem.read (addMod s.cfg.capacity s.head i)

/-- `Q = q(0), ..., q(count - 1)` (10_state.md R25). -/
def State.contents (s : State) : List Byte := (List.range s.count).filterMap s.q

/-- `T`: how many bytes of `Q` equal `eom` (10_state.md R30). -/
def State.residentTerms (s : State) : Nat := s.contents.count s.eom

/-! ### Invariants -/

/-- What holds in every state a run from reset reaches. -/
structure RingInv (s : State) : Prop where
  /-- The storage list is in canonical form. -/
  mem_wf : s.mem.wf
  /-- Every listed slot is a slot of the ring (20_memory.md R54). -/
  mem_within : s.mem.within s.cfg.capacity
  /-- R26. -/
  count_le : s.count ≤ s.cfg.capacity
  /-- R26. -/
  head_lt : s.head < s.cfg.capacity
  /-- R26. -/
  tail_lt : s.tail < s.cfg.capacity
  /-- The representation invariant of R25. -/
  tail_eq : s.tail = addMod s.cfg.capacity s.head s.count
  /-- Every occupied slot has been written (R21). -/
  occupied : ∀ i, i < s.count → (s.q i).isSome = true
  /-- R29, 41_framing.md R125. -/
  msgs_le : s.msgs ≤ s.cfg.msgMax
  /-- R41; the receive register is empty while the driver is disabled (43_channel.md R156). -/
  suspended : s.active = false → s.count = 0 ∧ s.msgs = 0 ∧ s.rxRdy = false

/-- The invariant with R30's relation: the counter is at most the resident terminators, and counts
nothing while framing is disabled. -/
structure FramingInv (s : State) : Prop where
  inv : RingInv s
  /-- `msgs <= T` (R30). -/
  msgs_le_terms : s.msgs ≤ s.residentTerms
  frm_off : s.frmEn = false → s.msgs = 0

/-! ### What the next step runs -/

/-- The command the next turn of the consumer runs, if a legal one is held or offered. -/
def State.nextCommand (s : State) : Option Instr :=
  match s.takeCommand with
  | none => none
  | some (w, _) =>
    match decode (.cmd w) with
    | .ok i => some i
    | .error _ => none

/-- RXEVT if the event word says that a byte is pending. -/
def State.nextEvent (s : State) : Option Instr :=
  match decode (.evt s.eventWord) with
  | .ok i => some i
  | .error _ => none

/-- The operation the next step runs; none for a step of the Line Driver, an illegal word, or an
agent with nothing to do. -/
def State.nextInstr (s : State) : Option Instr :=
  match s.turns with
  | [] => if s.evtReq then s.nextEvent else s.nextCommand
  | .consumer :: _ => s.nextCommand
  | .producer :: _ => s.nextEvent
  | .arrive _ :: _ => none
  | .txFree _ :: _ => none

/-- The next step clears the ring (43_channel.md R155 to R157). -/
def State.nextClears (s : State) : Bool :=
  decide (s.nextInstr = some .resume ∨ s.nextInstr = some .suspend ∨ s.nextInstr = some .clear)

/-! ### Bytes in and out of a step -/

/-- `STATUS` of a response word (30_encoding.md R79). -/
def rspStatus (r : Word24) : BitVec 8 := r.extractLsb' 16 8

/-- `VAL` of a response word (30_encoding.md R79). -/
def rspVal (r : Word24) : Word16 := r.extractLsb' 0 16

/-- The ring bytes that the step from `s` to `t` returned to the consumer: POP1 in `VAL[7:0]`, GET
and GETMSG on the data stream. -/
def delivered (s t : State) : List Byte :=
  match s.nextInstr with
  | some .pop1 =>
    match t.out.rsp with
    | some r => if rspStatus r = 0x00#8 then [(rspVal r).extractLsb' 0 8] else []
    | none => []
  | some (.get _) => t.out.dat
  | some (.getmsg _) => t.out.dat
  | _ => []

/-- The byte that the step from `s` to `t` pushed, if it is an RXEVT whose push succeeded. -/
def accepted (s t : State) : List Byte :=
  match s.nextInstr with
  | some .rxevt => if s.active && !t.out.pushFail then [s.rxByte] else []
  | _ => []

/-- The next step takes a byte equal to `eom` out of the ring by POP1 or GET while framing is
enabled (10_state.md R30's usage condition broken). -/
def State.nextDrainsTerm (s : State) : Prop :=
  s.active = true ∧ s.frmEn = true ∧
    ((s.nextInstr = some .pop1 ∧ s.eom ∈ s.contents.take 1) ∨
      ∃ n, s.nextInstr = some (.get n) ∧ s.eom ∈ s.contents.take n)

/-! ### Runs -/

/-- `n` steps from `s`, stopping at the first fault or refusal. -/
def runFor (n : Nat) (s : State) : Host.Outcome State Fault Refusal :=
  Host.Core.run Sys2Proof.core n s

/-- The reset state of `cfg` with the consumer's commands and a schedule placed from outside: any
execution of the four agents starts in such a state (log 1, log 3). -/
def State.resetFor (cfg : Config) (cmds : List Word24) (turns : List Turn) : State :=
  { State.resetWith cfg with cmds := cmds, turns := turns }

/-- What every agent can see or will see of a state: all but the indices, the storage outside `Q`,
and a receive register that holds no byte (10_state.md R25, R33). The two states' schedules and
commands to come are the same. -/
structure SameView (s t : State) : Prop where
  cfg : t.cfg = s.cfg
  contents : t.contents = s.contents
  eom : t.eom = s.eom
  frmEn : t.frmEn = s.frmEn
  msgs : t.msgs = s.msgs
  active : t.active = s.active
  rxRdy : t.rxRdy = s.rxRdy
  rxByte : s.rxRdy = true → t.rxByte = s.rxByte
  txFree : t.txFree = s.txFree
  held : t.held = s.held
  cmds : t.cmds = s.cmds
  turns : t.turns = s.turns
  draws : t.draws = s.draws
  out : t.out = s.out

/-! ### Bytes in and out of a run -/

/-- The ring bytes returned in the first `n` steps from `s`, in order. -/
def runDelivered : Nat → State → List Byte
  | 0, _ => []
  | n + 1, s =>
    match step s with
    | .next t => delivered s t ++ runDelivered n t
    | .fault _ => []
    | .refused _ => []

/-- The bytes pushed in the first `n` steps from `s`, in order. -/
def runAccepted : Nat → State → List Byte
  | 0, _ => []
  | n + 1, s =>
    match step s with
    | .next t => accepted s t ++ runAccepted n t
    | .fault _ => []
    | .refused _ => []

/-- None of the first `n` steps from `s` clears the ring. -/
def runWithoutClear : Nat → State → Bool
  | 0, _ => true
  | n + 1, s =>
    match step s with
    | .next t => !s.nextClears && runWithoutClear n t
    | .fault _ => true
    | .refused _ => true

/-! ### Encodings -/

/-- The bits of a command word that take part in decoding it as `i` (30_encoding.md R77, R84). -/
def usedBits : Instr → Word24
  | .resume => 0xFF0000#24
  | .suspend => 0xFF0000#24
  | .clear => 0xFF0000#24
  | .pop1 => 0xFF0000#24
  | .get _ => 0xFFFFFF#24
  | .getmsg _ => 0xFFFFFF#24
  | .put _ => 0xFF00FF#24
  | .get1 _ => 0xFF0001#24
  | .seteom _ => 0xFF00FF#24
  | .setfrm _ => 0xFF0001#24
  | .rdreg _ => 0xFFFFFF#24
  | .rxevt => 0#24

/-- The `match` of an operation's row of the opcode table (30_encoding.md R78, R82). -/
def rowMatch : Instr → Nat
  | .resume => 0x010000
  | .suspend => 0x020000
  | .clear => 0x030000
  | .pop1 => 0x040000
  | .get _ => 0x050000
  | .getmsg _ => 0x060000
  | .put _ => 0x070000
  | .get1 _ => 0x080000
  | .seteom _ => 0x090000
  | .setfrm _ => 0x0A0000
  | .rdreg _ => 0x0B0000
  | .rxevt => 0x100

/-- A port word selects the row of `i`: its bits under the row's mask equal the row's match. -/
def selectsRow (i : Instr) : PortWord → Bool
  | .cmd w => decide ((w &&& 0xFF0000#24).toNat = rowMatch i)
  | .evt w => decide ((w &&& 0x100#9).toNat = rowMatch i)

end Sys2Proof.Machine
end

