-- ==== Sys2Proof/Certificates/Slice0/Obligations.lean ====
section
/-! DEFINITION. The statements for the provers. The numbers R<n> are the rules of spec/; "log <n>"
is notes/assumptions/<n>.md. -/

open Sys2Proof Sys2Proof.Machine

/-! ### Encoding -/

/-- Decoding the word the encoder writes for a well-formed operation gives that operation back, for
every operation and every operand. -/
def Obligations.DecodeEncodeAgree : Prop :=
  ∀ i : Instr, i.wf = true → decode (encode i) = .ok i

/-- R77: the four uses of `ARG`, for every `ARG` and with the opcode of every row of R78, and the
words an assembler writes, with the ignored bits 0. -/
def Obligations.ArgumentFormsOfEveryCommand : Prop :=
  (∀ arg : Word16,
    decode (.cmd (0x01#8 ++ arg)) = .ok .resume ∧
    decode (.cmd (0x02#8 ++ arg)) = .ok .suspend ∧
    decode (.cmd (0x03#8 ++ arg)) = .ok .clear ∧
    decode (.cmd (0x04#8 ++ arg)) = .ok .pop1 ∧
    decode (.cmd (0x05#8 ++ arg)) = .ok (.get arg.toNat) ∧
    decode (.cmd (0x06#8 ++ arg)) = .ok (.getmsg arg.toNat) ∧
    decode (.cmd (0x07#8 ++ arg)) = .ok (.put (arg.extractLsb' 0 8)) ∧
    decode (.cmd (0x08#8 ++ arg)) = .ok (.get1 (arg.getLsbD 0)) ∧
    decode (.cmd (0x09#8 ++ arg)) = .ok (.seteom (arg.extractLsb' 0 8)) ∧
    decode (.cmd (0x0A#8 ++ arg)) = .ok (.setfrm (arg.getLsbD 0)) ∧
    decode (.cmd (0x0B#8 ++ arg)) = .ok (.rdreg arg.toNat)) ∧
  encode .resume = .cmd 0x010000#24 ∧ encode .suspend = .cmd 0x020000#24 ∧
  encode .clear = .cmd 0x030000#24 ∧ encode .pop1 = .cmd 0x040000#24 ∧
  (∀ n, n ≤ 65535 →
    encode (.get n) = .cmd (BitVec.ofNat 24 (0x050000 + n)) ∧
    encode (.getmsg n) = .cmd (BitVec.ofNat 24 (0x060000 + n)) ∧
    encode (.rdreg n) = .cmd (BitVec.ofNat 24 (0x0B0000 + n))) ∧
  (∀ b : Byte,
    encode (.put b) = .cmd (BitVec.ofNat 24 (0x070000 + b.toNat)) ∧
    encode (.seteom b) = .cmd (BitVec.ofNat 24 (0x090000 + b.toNat))) ∧
  ∀ f : Bool,
    encode (.get1 f) = .cmd (BitVec.ofNat 24 (0x080000 + f.toNat)) ∧
    encode (.setfrm f) = .cmd (BitVec.ofNat 24 (0x0A0000 + f.toNat))

/-- R84: bits outside `usedBits i` take no part, and the encoder writes them as 0. -/
def Obligations.IgnoredBitsHaveNoEffect : Prop :=
  ∀ (w : Word24) (i : Instr), decode (.cmd w) = .ok i →
    encode i = .cmd (w &&& usedBits i) ∧
    ∀ w' : Word24, w' &&& usedBits i = w &&& usedBits i → decode (.cmd w') = .ok i

/-- R85: every word of either port is an operation or rejected, and which it is. -/
def Obligations.DecodingIsTotal : Prop :=
  (∀ w : Word24,
    (1 ≤ w.toNat / 65536 ∧ w.toNat / 65536 ≤ 11 → ∃ i, i.wf = true ∧ decode (.cmd w) = .ok i) ∧
    (w.toNat / 65536 = 0 ∨ 12 ≤ w.toNat / 65536 →
      decode (.cmd w) = .error (.reservedOpcode (w.toNat / 65536)))) ∧
  ∀ e : Word9,
    (256 ≤ e.toNat → decode (.evt e) = .ok .rxevt) ∧
    (e.toNat < 256 → decode (.evt e) = .error .nothingPending)

/-- Words of 95_test_vectors.md decode to the operations written beside them there. -/
def Obligations.VectorWordsDecode : Prop :=
  decode (.cmd 0x010000#24) = .ok .resume ∧ decode (.cmd 0x01BEEF#24) = .ok .resume ∧
  decode (.cmd 0x050002#24) = .ok (.get 2) ∧ decode (.cmd 0x060010#24) = .ok (.getmsg 16) ∧
  decode (.cmd 0x07FF41#24) = .ok (.put 0x41#8) ∧ decode (.cmd 0x08FFFE#24) = .ok (.get1 false) ∧
  decode (.cmd 0x09FF0D#24) = .ok (.seteom 0x0D#8) ∧
  decode (.cmd 0x0A0003#24) = .ok (.setfrm true) ∧ decode (.cmd 0x0B0004#24) = .ok (.rdreg 4) ∧
  decode (.cmd 0x800001#24) = .error (.reservedOpcode 0x80) ∧
  decode (.evt 0x168#9) = .ok .rxevt ∧ decode (.evt 0x068#9) = .error .nothingPending

/-! ### The step -/

/-- A step runs the decoded operation. On the consumer's turn: of the command the port is busy with,
else of the next word offered, which the port is then busy with. On the producer's turn: RXEVT when
a byte waits. With no turn scheduled (log 2): RXEVT when a byte waits on an Active channel, else as
on the consumer's turn. -/
def Obligations.StepRunsDecodedInstruction : Prop :=
  (∀ (s : State) (ts : List Turn) (w : Word24) (i : Instr),
    s.turns = .consumer :: ts → s.held = some w → decode (.cmd w) = .ok i →
    step s = exec i { s with turns := ts }) ∧
  (∀ (s : State) (ts : List Turn) (w : Word24) (ws : List Word24) (i : Instr),
    s.turns = .consumer :: ts → s.held = none → s.cmds = w :: ws → decode (.cmd w) = .ok i →
    step s = exec i { s with turns := ts, held := some w, cmds := ws }) ∧
  (∀ (s : State) (ts : List Turn),
    s.turns = .producer :: ts → s.rxRdy = true → step s = exec .rxevt { s with turns := ts }) ∧
  (∀ s : State,
    s.turns = [] → s.rxRdy = true → s.active = true → step s = exec .rxevt s) ∧
  (∀ (s : State) (w : Word24) (i : Instr),
    s.turns = [] → (s.rxRdy = false ∨ s.active = false) → s.held = some w →
    decode (.cmd w) = .ok i → step s = exec i s) ∧
  ∀ (s : State) (w : Word24) (ws : List Word24) (i : Instr),
    s.turns = [] → (s.rxRdy = false ∨ s.active = false) → s.held = none → s.cmds = w :: ws →
    decode (.cmd w) = .ok i → step s = exec i { s with held := some w, cmds := ws }

/-- R83: a reserved `OPC` is answered ILLEGAL with `VAL` 0 and no data, and nothing else changes
but that the word is taken and answered; so is RDREG of a reserved register number. -/
def Obligations.ReservedOpcodeAnsweredIllegal : Prop :=
  (∀ (s : State) (ts : List Turn) (w : Word24) (ws : List Word24),
    s.turns = .consumer :: ts → s.held = none → s.cmds = w :: ws →
    (w.toNat / 65536 = 0 ∨ 12 ≤ w.toNat / 65536) →
    step s = .next { s with
      turns := ts
      cmds := ws
      held := none
      out := { rsp := some 0x050000#24 } }) ∧
  ∀ (s : State) (r : Nat), 5 ≤ r →
    exec (.rdreg r) s = .next { s with held := none, out := { rsp := some 0x050000#24 } }

/-- The value every state field has after reset, for every configuration with the spec's reset
parameters. `rx_byte` and `tx_free`, to which the spec gives no value, are left out; a slot of
`mem` has no value (log 9). -/
def Obligations.ResetValues : Prop :=
  ∀ cfg : Config, cfg.eomDefault = 0x0A#8 → cfg.frmEnReset = true →
    let s := State.resetWith cfg
    s.cfg = cfg ∧ s.active = false ∧ s.eom = 0x0A#8 ∧ s.frmEn = true ∧ s.head = 0 ∧ s.tail = 0 ∧
    s.count = 0 ∧ s.msgs = 0 ∧ s.rxRdy = false ∧ (∀ i, s.mem.read i = none) ∧
    s.ldTxEn = false ∧ s.ldRxEn = false ∧ s.ldRxie = false ∧
    s.isEmpty = true ∧ s.isFull = false ∧ s.msgAvl = false ∧ s.statusReg = 0x0012#16

/-! ### Lifecycle -/

/-- R155, with its encoding: the new state, the three enables on, and ACTIVE, EMPTY, FULL, MSGAVL.
All else is unchanged, `mem` included. -/
def Obligations.ResumeResult : Prop :=
  (∀ arg : Word16, decode (.cmd (0x01#8 ++ arg)) = .ok .resume) ∧
  ∀ s : State, ∃ t, exec .resume s = .next t ∧
    t = { s with
      head := 0
      tail := 0
      count := 0
      msgs := 0
      rxRdy := false
      active := true
      held := none
      out := { rsp := some 0x000000#24, ldCfg := some s.cfg.ldSetting } } ∧
    t.ldTxEn = true ∧ t.ldRxEn = true ∧ t.ldRxie = true ∧
    t.isEmpty = true ∧ t.isFull = false ∧ t.msgAvl = false

/-- R156, with its encoding: the new state, the three enables off, and EMPTY, FULL, MSGAVL. All else
is unchanged, `mem` included. -/
def Obligations.SuspendResult : Prop :=
  (∀ arg : Word16, decode (.cmd (0x02#8 ++ arg)) = .ok .suspend) ∧
  ∀ s : State, ∃ t, exec .suspend s = .next t ∧
    t = { s with
      head := 0
      tail := 0
      count := 0
      msgs := 0
      rxRdy := false
      active := false
      held := none
      out := { rsp := some 0x000000#24 } } ∧
    t.ldTxEn = false ∧ t.ldRxEn = false ∧ t.ldRxie = false ∧
    t.isEmpty = true ∧ t.isFull = false ∧ t.msgAvl = false

/-- R157, with its encoding: the new state, the enables as `active` has them, and EMPTY, FULL,
MSGAVL. All else is unchanged, `rx_rdy`, `rx_byte` and `mem` included. -/
def Obligations.ClearResult : Prop :=
  (∀ arg : Word16, decode (.cmd (0x03#8 ++ arg)) = .ok .clear) ∧
  ∀ s : State, ∃ t, exec .clear s = .next t ∧
    t = { s with
      head := 0
      tail := 0
      count := 0
      msgs := 0
      held := none
      out := { rsp := some 0x000000#24 } } ∧
    t.ldTxEn = s.active ∧ t.ldRxEn = s.active ∧ t.ldRxie = s.active ∧
    t.isEmpty = true ∧ t.isFull = false ∧ t.msgAvl = false

/-- R32: the three enables of the Line Driver are `active`, in every state between steps. -/
def Obligations.LineDriverEnablesFollowActive : Prop :=
  ∀ s : State, s.ldTxEn = s.active ∧ s.ldRxEn = s.active ∧ s.ldRxie = s.active

/-- R164: the channel state after every operation and after every step of the Line Driver, and the
idempotence of the pair. -/
def Obligations.LifecycleStateMachine : Prop :=
  (∀ (i : Instr) (s t : State), exec i s = .next t →
    (i = .resume → t.active = true) ∧ (i = .suspend → t.active = false) ∧
    (i ≠ .resume → i ≠ .suspend → t.active = s.active)) ∧
  (∀ s t : State, step s = .next t → s.nextInstr = none → t.active = s.active) ∧
  (∀ s t : State, exec .resume s = .next t → exec .resume t = .next t) ∧
  ∀ s t : State, exec .suspend s = .next t → exec .suspend t = .next t

/-! ### Ring readers -/

/-- R106: POP1 in every state with the invariant, with its encoding. -/
def Obligations.Pop1Result : Prop :=
  (∀ arg : Word16, decode (.cmd (0x04#8 ++ arg)) = .ok .pop1) ∧
  ∀ s : State, RingInv s →
    (s.active = false →
      exec .pop1 s = .next { s with held := none, out := { rsp := some 0x030000#24 } }) ∧
    (s.active = true → s.contents = [] →
      exec .pop1 s = .next { s with held := none, out := { rsp := some 0x010000#24 } }) ∧
    ∀ (b : Byte) (q : List Byte), s.active = true → s.contents = b :: q →
      ∃ t, exec .pop1 s = .next t ∧ t.contents = q ∧
        t = { s with
          head := addMod s.cfg.capacity s.head 1
          count := s.count - 1
          held := none
          out := { rsp := some (0x00#8 ++ (0x00#8 ++ b)) } }

/-- R158 (and R102): GET in every state with the invariant and for every `n`, with its encoding.
`msgs` is not changed whatever the bytes are. -/
def Obligations.GetResult : Prop :=
  (∀ arg : Word16, decode (.cmd (0x05#8 ++ arg)) = .ok (.get arg.toNat)) ∧
  ∀ (s : State) (n : Nat), RingInv s →
    (s.active = false →
      exec (.get n) s = .next { s with held := none, out := { rsp := some 0x030000#24 } }) ∧
    (s.active = true →
      ∃ t, exec (.get n) s = .next t ∧ t.contents = s.contents.drop n ∧
        (s.contents.take n).length = min n s.count ∧
        t = { s with
          head := addMod s.cfg.capacity s.head (min n s.count)
          count := s.count - min n s.count
          held := none
          out := {
            rsp := some (0x00#8 ++ BitVec.ofNat 16 (min n s.count))
            dat := s.contents.take n } })

/-- R159 (with R103 and R104): GETMSG in every state with the invariant, for every `n` and both
policies, with its encoding. `p` is the place of the first terminator in the ring. -/
def Obligations.GetmsgResult : Prop :=
  (∀ arg : Word16, decode (.cmd (0x06#8 ++ arg)) = .ok (.getmsg arg.toNat)) ∧
  ∀ (s : State) (n : Nat), RingInv s →
    (s.active = false →
      exec (.getmsg n) s = .next { s with held := none, out := { rsp := some 0x030000#24 } }) ∧
    (s.active = true → s.eom ∉ s.contents →
      exec (.getmsg n) s = .next { s with held := none, out := { rsp := some 0x020000#24 } }) ∧
    ∀ p : Nat, s.active = true → s.contents[p]? = some s.eom → s.eom ∉ s.contents.take p →
      (p < n →
        ∃ t, exec (.getmsg n) s = .next t ∧ t.contents = s.contents.drop (p + 1) ∧
          t = { s with
            head := addMod s.cfg.capacity s.head (p + 1)
            count := s.count - (p + 1)
            msgs := if s.msgs = 0 then 0 else s.msgs - 1
            held := none
            out := {
              rsp := some (0x00#8 ++ BitVec.ofNat 16 (p + 1))
              dat := s.contents.take (p + 1) } }) ∧
      (n ≤ p → s.cfg.oversize = .keep →
        exec (.getmsg n) s = .next { s with held := none, out := { rsp := some 0x020000#24 } }) ∧
      (n ≤ p → s.cfg.oversize = .drop →
        ∃ t, exec (.getmsg n) s = .next t ∧ t.contents = s.contents.drop (p + 1) ∧
          t = { s with
            head := addMod s.cfg.capacity s.head (p + 1)
            count := s.count - (p + 1)
            msgs := if s.msgs = 0 then 0 else s.msgs - 1
            held := none
            out := { rsp := some 0x020000#24 } })

/-- R163: the five data commands while Suspended; and nothing else answers NOTACTIVE. -/
def Obligations.DataCommandsNeedActive : Prop :=
  (∀ (s : State) (i : Instr), s.active = false →
    (i = .pop1 ∨ (∃ n, i = .get n) ∨ (∃ n, i = .getmsg n) ∨ (∃ b, i = .put b) ∨ ∃ f, i = .get1 f) →
    exec i s = .next { s with held := none, out := { rsp := some 0x030000#24 } }) ∧
  ∀ (s t : State) (i : Instr), exec i s = .next t → t.out.rsp = some 0x030000#24 →
    s.active = false ∧
    (i = .pop1 ∨ (∃ n, i = .get n) ∨ (∃ n, i = .getmsg n) ∨ (∃ b, i = .put b) ∨ ∃ f, i = .get1 f)

/-! ### Line Driver pass-throughs -/

/-- R160, with its encoding: answered at once while Suspended, done when the transmit register is
free, else waiting with nothing answered and the port as it was. That the wait is a step, which
clears the strobes, is the model's (log 15): by the rule PUT is then not enabled. -/
def Obligations.PutResult : Prop :=
  (∀ arg : Word16, decode (.cmd (0x07#8 ++ arg)) = .ok (.put (arg.extractLsb' 0 8))) ∧
  ∀ (s : State) (b : Byte),
    (s.active = false →
      exec (.put b) s = .next { s with held := none, out := { rsp := some 0x030000#24 } }) ∧
    (s.active = true → s.txFree = true →
      exec (.put b) s =
        .next { s with held := none, out := { rsp := some 0x000000#24, tx := some b } }) ∧
    (s.active = true → s.txFree = false → exec (.put b) s = .next { s with out := {} })

/-- R161, with its encoding. The ring is neither read nor written. That the wait of a blocking GET1
is a step, which clears the strobes, is the model's (log 15): by the rule it is then not enabled. -/
def Obligations.Get1Result : Prop :=
  (∀ arg : Word16, decode (.cmd (0x08#8 ++ arg)) = .ok (.get1 (arg.getLsbD 0))) ∧
  ∀ (s : State) (f : Bool),
    (s.active = false →
      exec (.get1 f) s = .next { s with held := none, out := { rsp := some 0x030000#24 } }) ∧
    (s.active = true → s.rxRdy = true →
      exec (.get1 f) s = .next { s with
        rxRdy := false
        held := none
        out := { rsp := some (0x00#8 ++ (0x00#8 ++ s.rxByte)), rxRd := true } }) ∧
    (s.active = true → s.rxRdy = false → f = false →
      exec (.get1 f) s = .next { s with held := none, out := { rsp := some 0x010000#24 } }) ∧
    (s.active = true → s.rxRdy = false → f = true →
      exec (.get1 f) s = .next { s with out := {} })

/-! ### Framing configuration -/

/-- R123, with its encoding. -/
def Obligations.SeteomResult : Prop :=
  (∀ arg : Word16, decode (.cmd (0x09#8 ++ arg)) = .ok (.seteom (arg.extractLsb' 0 8))) ∧
  ∀ (s : State) (b : Byte),
    (s.active = true →
      exec (.seteom b) s = .next { s with held := none, out := { rsp := some 0x040000#24 } }) ∧
    (s.active = false →
      exec (.seteom b) s =
        .next { s with eom := b, held := none, out := { rsp := some 0x000000#24 } })

/-- R124, with its encoding. -/
def Obligations.SetfrmResult : Prop :=
  (∀ arg : Word16, decode (.cmd (0x0A#8 ++ arg)) = .ok (.setfrm (arg.getLsbD 0))) ∧
  ∀ (s : State) (f : Bool),
    (s.active = true →
      exec (.setfrm f) s = .next { s with held := none, out := { rsp := some 0x040000#24 } }) ∧
    (s.active = false →
      exec (.setfrm f) s =
        .next { s with frmEn := f, held := none, out := { rsp := some 0x000000#24 } })

/-- R126 (with R27, R28): over every step, whatever agent takes it, `eom` and `frm_en` stay while
Active, and while Suspended only SETEOM and SETFRM write them; the two issued while Active answer
NOTSUSP and change nothing. -/
def Obligations.ConfigurationFrozenWhileActive : Prop :=
  (∀ s t : State, step s = .next t →
    (s.active = true → t.eom = s.eom ∧ t.frmEn = s.frmEn) ∧
    (t.eom = s.eom ∨ s.nextInstr = some (.seteom t.eom)) ∧
    (t.frmEn = s.frmEn ∨ s.nextInstr = some (.setfrm t.frmEn))) ∧
  (∀ (s : State) (b : Byte), s.active = true →
    exec (.seteom b) s = .next { s with held := none, out := { rsp := some 0x040000#24 } }) ∧
  ∀ (s : State) (f : Bool), s.active = true →
    exec (.setfrm f) s = .next { s with held := none, out := { rsp := some 0x040000#24 } }

/-! ### Status -/

/-- R162 with the register layouts of R40: RDREG in every state with the invariant, for every
register number, with its encoding. -/
def Obligations.RdregResult : Prop :=
  (∀ arg : Word16, decode (.cmd (0x0B#8 ++ arg)) = .ok (.rdreg arg.toNat)) ∧
  ∀ (s : State) (r : Nat), RingInv s →
    (5 ≤ r →
      exec (.rdreg r) s = .next { s with held := none, out := { rsp := some 0x050000#24 } }) ∧
    (r ≤ 4 → ∃ v : Word16,
      exec (.rdreg r) s = .next { s with held := none, out := { rsp := some (0x00#8 ++ v) } } ∧
      (r = 0 → v.getLsbD 0 = s.active ∧ v.getLsbD 1 = decide (s.count = 0) ∧
        v.getLsbD 2 = decide (s.count = s.cfg.capacity) ∧ v.getLsbD 3 = decide (s.msgs ≠ 0) ∧
        v.getLsbD 4 = s.frmEn ∧ ∀ j, 5 ≤ j → v.getLsbD j = false) ∧
      (r = 1 → v.toNat = s.count) ∧
      (r = 2 → s.cfg.msgWidth ≤ 16 → v.toNat = s.msgs) ∧
      (r = 2 → 16 < s.cfg.msgWidth → v.toNat = min s.msgs 65535) ∧
      (r = 3 → v.toNat = s.eom.toNat) ∧
      (r = 4 → v.toNat = s.cfg.capacity))

/-- R35 and R89: the flags, told on the abstract content, and the pins that mirror them. -/
def Obligations.FlagsMirrorContent : Prop :=
  ∀ s : State, RingInv s →
    (s.isEmpty = true ↔ s.contents = []) ∧
    (s.isFull = true ↔ s.contents.length = s.cfg.capacity) ∧
    (s.msgAvl = true ↔ s.msgs ≠ 0) ∧
    s.emptyPin = s.isEmpty ∧ s.fullPin = s.isFull ∧ s.msgAvailPin = s.msgAvl ∧
    (s.active = false → s.isEmpty = true ∧ s.isFull = false ∧ s.msgAvl = false)

/-! ### The receive source -/

/-- R136: RXEVT with the event requested, into a ring with room and into a full ring. A store
changes one slot only, the one at `tail`. -/
def Obligations.RxevtResult : Prop :=
  (∀ d : Byte, decode (.evt (1#1 ++ d)) = .ok .rxevt) ∧
  ∀ s : State, RingInv s → s.active = true → s.rxRdy = true →
    (s.count < s.cfg.capacity →
      ∃ t, exec .rxevt s = .next t ∧ t.contents = s.contents ++ [s.rxByte] ∧
        t.mem.read s.tail = some s.rxByte ∧
        (∀ a, a ≠ s.tail → t.mem.read a = s.mem.read a) ∧
        t = { s with
          mem := t.mem
          tail := addMod s.cfg.capacity s.tail 1
          count := s.count + 1
          msgs :=
            if s.frmEn = true ∧ s.rxByte = s.eom then
              if s.msgs = 2 ^ s.cfg.msgWidth - 1 then s.msgs else s.msgs + 1
            else s.msgs
          rxRdy := false
          out := { rxRd := true } }) ∧
    (s.count = s.cfg.capacity →
      exec .rxevt s =
        .next { s with rxRdy := false, out := { rxRd := true, pushFail := true } })

/-- R137: RXEVT is enabled exactly when `active = 1` and `rx_rdy = 1`. That the operation and the
producer's turn are otherwise a step, which changes nothing but the outputs and the schedule, is the
model's choice (log 5): by the rule there is then no such step. -/
def Obligations.RxevtOnlyWhenRequested : Prop :=
  ∀ s : State,
    (s.evtReq = true ↔ s.active = true ∧ s.rxRdy = true) ∧
    (¬(s.active = true ∧ s.rxRdy = true) →
      exec .rxevt s = .next { s with out := {} } ∧
      ∀ ts : List Turn, s.turns = .producer :: ts →
        step s = .next { s with turns := ts, out := {} })

/-- R135: ARRIVE while it is enabled, and the event word it leaves on the producer port. That its
turn is a step while Suspended, which changes nothing but the outputs and the schedule, is the
model's choice (log 5): by the rule there is then no such step. -/
def Obligations.ArriveResult : Prop :=
  ∀ (s : State) (b : Byte) (ts : List Turn), s.turns = .arrive b :: ts →
    (s.active = true → s.rxRdy = false →
      step s = .next { s with rxRdy := true, rxByte := b, turns := ts, out := {} } ∧
      ({ s with rxRdy := true, rxByte := b, turns := ts, out := {} } : State).eventWord =
        1#1 ++ b) ∧
    (s.active = false → step s = .next { s with turns := ts, out := {} })

/-- R143, the model's form of the open parameter LD_OVERRUN (log 8): a byte that arrives while one
is unread is lost or replaces it, as the parameter says; left open, it is one of the two. -/
def Obligations.OverrunOutcomes : Prop :=
  ∀ (s : State) (b : Byte) (ts : List Turn),
    s.turns = .arrive b :: ts → s.active = true → s.rxRdy = true →
    (s.cfg.ldOverrun = .newByteLost → step s = .next { s with turns := ts, out := {} }) ∧
    (s.cfg.ldOverrun = .newByteReplaces →
      step s = .next { s with rxByte := b, turns := ts, out := {} }) ∧
    (s.cfg.ldOverrun = .either → ∃ b' : Byte, (b' = s.rxByte ∨ b' = b) ∧
      step s = .next { s with rxByte := b', draws := s.draws + 1, turns := ts, out := {} })

/-- R160 (`tx_free` is an input the environment controls): its turn sets the pin and nothing
else. -/
def Obligations.TxFreeIsTheEnvironments : Prop :=
  (∀ (s : State) (v : Bool) (ts : List Turn), s.turns = .txFree v :: ts →
    step s = .next { s with txFree := v, turns := ts, out := {} }) ∧
  ∀ s t : State, step s = .next t →
    t.txFree = s.txFree ∨ ∃ ts, s.turns = .txFree t.txFree :: ts

/-- R145: ARRIVE(b) followed at once by RXEVT is the collapsed step RX(b), up to the receive
register, the schedule and the strobes. -/
def Obligations.CollapsedReceiveStep : Prop :=
  ∀ (s : State) (b : Byte) (ts : List Turn), RingInv s → s.active = true → s.rxRdy = false →
    s.turns = .arrive b :: .producer :: ts →
    ∃ u, rxCollapsed b s = .ok u ∧
      runFor 2 s = .next { u with
        rxByte := b
        turns := ts
        out := { rxRd := true, pushFail := decide (s.count = s.cfg.capacity) } }

/-- R142: a byte that waits in the Line Driver survives a CLEAR and is then pushed into the empty
ring. -/
def Obligations.PendingByteSurvivesClear : Prop :=
  ∀ s : State, RingInv s → s.active = true → s.rxRdy = true →
    ∃ t u, exec .clear s = .next t ∧ t.rxRdy = true ∧ t.contents = [] ∧
      exec .rxevt t = .next u ∧ u.contents = [s.rxByte] ∧ u.rxRdy = false ∧
      u.msgs = if s.frmEn = true ∧ s.rxByte = s.eom ∧ s.cfg.msgWidth ≠ 0 then 1 else 0

/-! ### Invariants -/

/-- The invariant holds after reset, in every configuration. -/
def Obligations.ResetMeetsInvariant : Prop :=
  ∀ cfg : Config, RingInv (State.resetWith cfg)

/-- Every step of every agent keeps the invariant. -/
def Obligations.StepKeepsInvariant : Prop :=
  ∀ s t : State, RingInv s → step s = .next t → RingInv t

/-- R54 and R190: with the invariant no step faults or refuses. -/
def Obligations.StepNeverStops : Prop :=
  ∀ s : State, RingInv s → ∃ t, step s = .next t

/-- R26, with R25's representation invariant and R41: every state that any execution reaches from
reset, in any configuration, under any commands and any interleaving; and no execution stops. -/
def Obligations.ReachableRanges : Prop :=
  ∀ (cfg : Config) (cmds : List Word24) (turns : List Turn) (n : Nat),
    ∃ t, runFor n (State.resetFor cfg cmds turns) = .next t ∧
      t.cfg = cfg ∧ t.count ≤ cfg.capacity ∧ t.head < cfg.capacity ∧ t.tail < cfg.capacity ∧
      t.tail = (t.head + t.count) % cfg.capacity ∧ t.msgs ≤ 2 ^ cfg.msgWidth - 1 ∧
      (t.active = false → t.count = 0 ∧ t.msgs = 0 ∧ t.head = t.tail)

/-- R7: the widths `IW` and `CNTW` hold the ranges of the three registers, and are the smallest
that do for the capacity: one bit less would not hold `C - 1` (for `IW > 1`) or `C`. -/
def Obligations.WidthsHoldRanges : Prop :=
  ∀ s : State, RingInv s →
    s.head < 2 ^ s.cfg.indexWidth ∧ s.tail < 2 ^ s.cfg.indexWidth ∧
    s.count < 2 ^ s.cfg.countWidth ∧
    (∀ w, 1 ≤ w → s.cfg.capacity - 1 < 2 ^ w → s.cfg.indexWidth ≤ w) ∧
    ∀ w, s.cfg.capacity < 2 ^ w → s.cfg.countWidth ≤ w

/-- R16 and R107: the index arithmetic is exact modulo `C` for its argument ranges. -/
def Obligations.IndexArithmeticIsModular : Prop :=
  ∀ c i k : Nat, i < c → k ≤ c →
    addMod c i k = (i + k) % c ∧ addMod c i k < c ∧ incMod c i = addMod c i 1

/-- R30: the invariant with the counter's relation to the ring holds after reset. -/
def Obligations.ResetMeetsFramingInvariant : Prop :=
  ∀ cfg : Config, FramingInv (State.resetWith cfg)

/-- R30: `msgs` stays at most the number of resident terminators over every step that does not
remove a terminator by POP1 or GET while framing is enabled, under both policies. -/
def Obligations.StepKeepsFramingInvariant : Prop :=
  ∀ s t : State, FramingInv s → ¬ s.nextDrainsTerm → step s = .next t → FramingInv t

/-- R30: in every execution from reset, in any configuration, under any commands and schedule, no step
of which removes a terminator by POP1 or GET while framing is enabled, the counter is at most the
number of resident terminators. -/
def Obligations.CounterNeverExceedsTerminators : Prop :=
  ∀ (cfg : Config) (cmds : List Word24) (turns : List Turn) (n : Nat) (t : State),
    runFor n (State.resetFor cfg cmds turns) = .next t →
    (∀ (k : Nat) (u : State), k < n → runFor k (State.resetFor cfg cmds turns) = .next u →
      ¬ u.nextDrainsTerm) →
    t.msgs ≤ t.residentTerms

/-- R225: a GET or a POP1 that takes a terminator leaves the counter as it was, so that R30's
relation can fail: from a state where it holds with equality it does fail. -/
def Obligations.DrainedTerminatorLeavesCounterStale : Prop :=
  ∀ s : State, RingInv s → s.active = true → s.msgs = s.residentTerms →
    (∀ n : Nat, s.eom ∈ s.contents.take n →
      ∃ t, exec (.get n) s = .next t ∧ t.msgs = s.msgs ∧ t.residentTerms < t.msgs) ∧
    ∀ q : List Byte, s.contents = s.eom :: q →
      ∃ t, exec .pop1 s = .next t ∧ t.msgs = s.msgs ∧ t.residentTerms < t.msgs

/-! ### Laws of whole executions -/

/-- R109 (and R58 under KEEP): over any run without a clear, what was in the ring followed by what
was accepted is what was delivered followed by what is in the ring; from an empty ring the bytes
delivered are a prefix of the bytes accepted. -/
def Obligations.FifoLaw : Prop :=
  ∀ (n : Nat) (s t : State), RingInv s → s.cfg.oversize = .keep → runWithoutClear n s = true →
    runFor n s = .next t →
    s.contents ++ runAccepted n s = runDelivered n s ++ t.contents ∧
    (s.contents = [] → runDelivered n s <+: runAccepted n s)

/-- R58 under either policy: nothing is reordered, duplicated or invented; DROP only leaves bytes
out. -/
def Obligations.FifoLawUnderDrop : Prop :=
  ∀ (n : Nat) (s t : State), RingInv s → runWithoutClear n s = true → runFor n s = .next t →
    (runDelivered n s ++ t.contents).Sublist (s.contents ++ runAccepted n s)

/-- R59: the bytes of one GETMSG are none, or end with a byte equal to `eom` and hold no other. -/
def Obligations.MessageBoundaryLaw : Prop :=
  ∀ (s t : State) (n : Nat), exec (.getmsg n) s = .next t →
    t.out.dat = [] ∨ ∃ d : List Byte, t.out.dat = d ++ [s.eom] ∧ s.eom ∉ d

/-- R25: no response and no later step depends on the indices, on the storage outside `Q`, or on a
receive register that holds no byte: two states that look alike step alike and look alike again,
with the same outputs. -/
def Obligations.AbstractContentDecidesBehaviour : Prop :=
  ∀ s s' : State, RingInv s → RingInv s' → SameView s s' →
    ∃ t t', step s = .next t ∧ step s' = .next t' ∧ SameView t t'

/-! ### Ownership, ports and responses -/

/-- R38: what each operation of the consumer and of the producer, and each step of the Line Driver,
may write. -/
def Obligations.WriteOwnership : Prop :=
  (∀ (i : Instr) (s t : State), i ≠ .rxevt → exec i s = .next t →
    t.mem = s.mem ∧ t.count ≤ s.count ∧ t.msgs ≤ s.msgs ∧ t.rxByte = s.rxByte ∧
    (t.tail = s.tail ∨ ((i = .resume ∨ i = .suspend ∨ i = .clear) ∧ t.tail = 0)) ∧
    t.cfg = s.cfg ∧ t.turns = s.turns ∧ t.cmds = s.cmds) ∧
  (∀ s t : State, exec .rxevt s = .next t →
    t.head = s.head ∧ t.eom = s.eom ∧ t.frmEn = s.frmEn ∧ t.active = s.active ∧
    s.count ≤ t.count ∧ t.count ≤ s.count + 1 ∧ s.msgs ≤ t.msgs ∧ t.msgs ≤ s.msgs + 1 ∧
    t.held = s.held ∧ t.cmds = s.cmds ∧ t.rxByte = s.rxByte ∧ t.cfg = s.cfg) ∧
  ∀ (s t : State), step s = .next t → s.nextInstr = none →
    t.mem = s.mem ∧ t.head = s.head ∧ t.tail = s.tail ∧ t.count = s.count ∧ t.eom = s.eom ∧
    t.frmEn = s.frmEn ∧ t.msgs = s.msgs ∧ t.active = s.active ∧ t.cfg = s.cfg

/-- R88 and R79: every command is answered by exactly one response word, which frees the port, or
waits with no response: PUT for the transmit register, a blocking GET1 for a byte. RXEVT answers
nothing and leaves the port alone. That a wait is a step is the model's (log 15). -/
def Obligations.OneResponsePerCommand : Prop :=
  ∀ (i : Instr) (s t : State), exec i s = .next t →
    (i = .rxevt → t.out.rsp = none ∧ t.held = s.held) ∧
    (i ≠ .rxevt →
      ((∃ b, i = .put b) ∧ s.active = true ∧ s.txFree = false ∨
        i = .get1 true ∧ s.active = true ∧ s.rxRdy = false) →
      t.out.rsp = none ∧ t.held = s.held) ∧
    (i ≠ .rxevt →
      ¬((∃ b, i = .put b) ∧ s.active = true ∧ s.txFree = false ∨
        i = .get1 true ∧ s.active = true ∧ s.rxRdy = false) →
      t.out.rsp.isSome = true ∧ t.held = none)

/-- R80 and the status column of the opcode table: which statuses a step can answer, and that a
status that is not OK comes with `VAL` 0 (R79). -/
def Obligations.StatusesOfEachCommand : Prop :=
  ∀ (i : Instr) (s t : State) (r : Word24), exec i s = .next t → t.out.rsp = some r →
    (rspStatus r ≠ 0x00#8 → rspVal r = 0#16 ∧ t.out.dat = []) ∧
    rspStatus r ∈
      (match i with
      | .resume => [0x00#8]
      | .suspend => [0x00#8]
      | .clear => [0x00#8]
      | .pop1 => [0x00#8, 0x01#8, 0x03#8]
      | .get _ => [0x00#8, 0x03#8]
      | .getmsg _ => [0x00#8, 0x02#8, 0x03#8]
      | .put _ => [0x00#8, 0x03#8]
      | .get1 _ => [0x00#8, 0x01#8, 0x03#8]
      | .seteom _ => [0x00#8, 0x04#8]
      | .setfrm _ => [0x00#8, 0x04#8]
      | .rdreg _ => [0x00#8, 0x05#8]
      | .rxevt => [])

/-- R81: data comes only from GET and GETMSG that answer OK, with as many bytes as `VAL` says, at
most the argument and at most `C`. -/
def Obligations.DataStreamBounds : Prop :=
  ∀ s t : State, RingInv s → step s = .next t → t.out.dat ≠ [] →
    ∃ n, (s.nextInstr = some (.get n) ∨ s.nextInstr = some (.getmsg n)) ∧
      t.out.rsp = some (0x00#8 ++ BitVec.ofNat 16 t.out.dat.length) ∧
      t.out.dat.length ≤ n ∧ t.out.dat.length ≤ s.cfg.capacity

/-- R89: the three level pins, and `push_fail`, which is 1 for exactly the RXEVT steps whose push was
rejected. -/
def Obligations.PushFailMarksRejectedPush : Prop :=
  (∀ s : State,
    (s.emptyPin = true ↔ s.count = 0) ∧ (s.fullPin = true ↔ s.count = s.cfg.capacity) ∧
    (s.msgAvailPin = true ↔ s.msgs ≠ 0)) ∧
  ∀ s t : State, RingInv s → step s = .next t →
    (t.pushFailPin = true ↔ s.nextInstr = some .rxevt ∧ s.count = s.cfg.capacity)

/-- R33 (with R55, R197): a waiting byte leaves the receive register in RXEVT, GET1, RESUME and
SUSPEND, and in no other step. -/
def Obligations.ReceiveRegisterClearers : Prop :=
  ∀ s t : State, RingInv s → s.rxRdy = true → step s = .next t →
    (t.rxRdy = false ↔
      s.nextInstr = some .rxevt ∨ (∃ f, s.nextInstr = some (.get1 f)) ∨
        s.nextInstr = some .resume ∨ s.nextInstr = some .suspend)

/-- R4, R5: the configuration an instance is built with never changes. -/
def Obligations.ConfigurationIsFixed : Prop :=
  ∀ (n : Nat) (s t : State), runFor n s = .next t → t.cfg = s.cfg

/-- R191 (with R5, R12): an instance with a pair that the Line Driver's table does not hold, or with
a capacity out of range, is not built, and one with both valid is; and at run time the Line Driver
is handed a pair by RESUME only, always the one pair built in, which its table holds. -/
def Obligations.UnsupportedPairIsNotBuilt : Prop :=
  (∀ (c : Nat) (table : List LdSetting) (p : LdSetting),
    (p ∉ table → Config.build c table p = none) ∧
    (c = 0 ∨ 65535 < c → Config.build c table p = none) ∧
    (1 ≤ c → c ≤ 65535 → p ∈ table → ∃ cfg, Config.build c table p = some cfg ∧
      cfg.capacity = c ∧ cfg.ldTable = table ∧ cfg.ldSetting = p)) ∧
  ∀ s t : State, step s = .next t →
    (∀ p, t.out.ldCfg = some p → p = s.cfg.ldSetting ∧ p ∈ s.cfg.ldTable) ∧
    (t.out.ldCfg ≠ none ↔ s.nextInstr = some .resume)

/-! ### Hazards and progress -/

/-- R226: a full ring with no terminator in it: every RXEVT is rejected and changes only `rx_rdy`,
every GETMSG answers NOMSG and changes nothing, and CLEAR and GET both leave the stall. -/
def Obligations.FullRingWithoutTerminatorStalls : Prop :=
  ∀ s : State, RingInv s → s.active = true → s.count = s.cfg.capacity → s.eom ∉ s.contents →
    (s.rxRdy = true →
      exec .rxevt s = .next { s with rxRdy := false, out := { rxRd := true, pushFail := true } }) ∧
    (∀ n, exec (.getmsg n) s =
      .next { s with held := none, out := { rsp := some 0x020000#24 } }) ∧
    (∃ t, exec .clear s = .next t ∧ t.contents = []) ∧
    ∀ n, 0 < n → ∃ t, exec (.get n) s = .next t ∧ t.count < t.cfg.capacity ∧
      t.out.dat = s.contents.take n

/-- R229: while `tx_free` is 0 and the environment does not raise it, a PUT that waits is never
answered, nothing else is taken at the consumer port, and the run goes on without end (that a
wait is a step is the model's, log 15). -/
def Obligations.WaitingPutIsNeverAnswered : Prop :=
  ∀ (n : Nat) (s : State) (w : Word24) (b : Byte), RingInv s → s.active = true →
    s.txFree = false → s.held = some w → decode (.cmd w) = .ok (.put b) →
    (∀ u ∈ s.turns, u ≠ .txFree true) →
    ∃ t, runFor n s = .next t ∧ t.held = some w ∧ t.cmds = s.cmds ∧ t.active = true ∧
      t.txFree = false ∧ (0 < n → t.out.rsp = none)

/-- R229: while no byte arrives, a blocking GET1 that waits is never answered, nothing else is taken
at the consumer port, and the run goes on without end (that a
wait is a step is the model's, log 15). -/
def Obligations.WaitingGet1IsNeverAnswered : Prop :=
  ∀ (n : Nat) (s : State) (w : Word24), RingInv s → s.active = true →
    s.rxRdy = false → s.held = some w → decode (.cmd w) = .ok (.get1 true) →
    (∀ b : Byte, .arrive b ∉ s.turns) →
    ∃ t, runFor n s = .next t ∧ t.held = some w ∧ t.cmds = s.cmds ∧ t.active = true ∧
      t.rxRdy = false ∧ t.contents = s.contents ∧ (0 < n → t.out.rsp = none)

/-- R140: while a PUT waits the receive event is serviced as ever: the producer's turn pushes the
waiting byte. -/
def Obligations.WaitingCommandDoesNotBlockReceive : Prop :=
  ∀ (s : State) (w : Word24) (ts : List Turn), RingInv s → s.active = true → s.rxRdy = true →
    s.held = some w → s.turns = .producer :: ts → s.count < s.cfg.capacity →
    ∃ t, step s = .next t ∧ t.contents = s.contents ++ [s.rxByte] ∧ t.held = some w ∧
      t.rxRdy = false ∧ t.turns = ts

/-- R144, in the model's form (log 2, log 18): a waiting byte leaves the receive register by the
end of the schedule and one step more, whatever the schedule and the commands are. -/
def Obligations.PendingEventIsServiced : Prop :=
  ∀ s : State, RingInv s → s.rxRdy = true →
    ∃ n t, n ≤ s.turns.length + 1 ∧ runFor n s = .next t ∧ t.rxRdy = false
end

