-- ==== Sys2Proof/Laws/Index.lean ====
section
/-! SUPPORT. The laws of the ring's index arithmetic (00_scope.md R16, 40_ring_buffer.md R107). -/

namespace Sys2Proof.Machine

theorem addMod_lt {c i k : Nat} (hi : i < c) (hk : k ≤ c) : addMod c i k < c := by
  unfold addMod; split <;> omega

theorem addMod_zero {c i : Nat} (hi : i < c) : addMod c i 0 = i := by
  unfold addMod; split <;> omega

/-- Going round the whole ring comes back to the start. -/
theorem addMod_self (c i : Nat) : addMod c i c = i := by
  unfold addMod; split <;> omega

theorem addMod_one {c i : Nat} (hi : i < c) : addMod c i 1 = incMod c i := by
  unfold addMod incMod; split <;> split <;> omega

theorem incMod_lt {c i : Nat} (hi : i < c) : incMod c i < c := by
  unfold incMod; split <;> omega

theorem addMod_addMod {c i j k : Nat} (hi : i < c) (h : j + k ≤ c) :
    addMod c (addMod c i j) k = addMod c i (j + k) := by
  unfold addMod; split <;> split <;> split <;> omega

theorem incMod_addMod {c i k : Nat} (hi : i < c) (hk : k < c) :
    incMod c (addMod c i k) = addMod c i (k + 1) := by
  rw [← addMod_one (addMod_lt hi (Nat.le_of_lt hk)), addMod_addMod hi hk]

/-- Places of the ring that differ are different slots. -/
theorem addMod_ne {c i j k : Nat} (hj : j < c) (hk : k < c) (h : j ≠ k) :
    addMod c i j ≠ addMod c i k := by
  unfold addMod; split <;> split <;> omega

end Sys2Proof.Machine
end

