-- ==== Sys2Proof/Laws/State.lean ====
section
/-! SUPPORT. One lemma per field per update of State. -/

namespace Sys2Proof.Machine

/-! ### Updates that are another update -/

@[simp] theorem State.respond_eq (st : Status) (v : Word16) (d : List Byte) (s : State) :
    s.respond st v d = s.respondWith {} st v d := rfl

@[simp] theorem State.wait_eq (s : State) : s.wait = s.emit {} := rfl

@[simp] theorem State.idle_eq (s : State) : s.idle = s.emit {} := rfl

@[simp] theorem State.clearRing_eq (s : State) : s.clearRing = s.rbClear.fsReset := rfl

/-! ### `emit` -/

@[simp] theorem State.emit_cfg (o : Outputs) (s : State) :
    (s.emit o).cfg = s.cfg := rfl
@[simp] theorem State.emit_mem (o : Outputs) (s : State) :
    (s.emit o).mem = s.mem := rfl
@[simp] theorem State.emit_head (o : Outputs) (s : State) :
    (s.emit o).head = s.head := rfl
@[simp] theorem State.emit_tail (o : Outputs) (s : State) :
    (s.emit o).tail = s.tail := rfl
@[simp] theorem State.emit_count (o : Outputs) (s : State) :
    (s.emit o).count = s.count := rfl
@[simp] theorem State.emit_eom (o : Outputs) (s : State) :
    (s.emit o).eom = s.eom := rfl
@[simp] theorem State.emit_frmEn (o : Outputs) (s : State) :
    (s.emit o).frmEn = s.frmEn := rfl
@[simp] theorem State.emit_msgs (o : Outputs) (s : State) :
    (s.emit o).msgs = s.msgs := rfl
@[simp] theorem State.emit_active (o : Outputs) (s : State) :
    (s.emit o).active = s.active := rfl
@[simp] theorem State.emit_rxRdy (o : Outputs) (s : State) :
    (s.emit o).rxRdy = s.rxRdy := rfl
@[simp] theorem State.emit_rxByte (o : Outputs) (s : State) :
    (s.emit o).rxByte = s.rxByte := rfl
@[simp] theorem State.emit_txFree (o : Outputs) (s : State) :
    (s.emit o).txFree = s.txFree := rfl
@[simp] theorem State.emit_held (o : Outputs) (s : State) :
    (s.emit o).held = s.held := rfl
@[simp] theorem State.emit_cmds (o : Outputs) (s : State) :
    (s.emit o).cmds = s.cmds := rfl
@[simp] theorem State.emit_turns (o : Outputs) (s : State) :
    (s.emit o).turns = s.turns := rfl
@[simp] theorem State.emit_draws (o : Outputs) (s : State) :
    (s.emit o).draws = s.draws := rfl
@[simp] theorem State.emit_out (o : Outputs) (s : State) :
    (s.emit o).out = o := rfl

/-! ### `respondWith` -/

@[simp] theorem State.respondWith_cfg (o : Outputs) (st : Status) (v : Word16) (d : List Byte) (s : State) :
    (s.respondWith o st v d).cfg = s.cfg := rfl
@[simp] theorem State.respondWith_mem (o : Outputs) (st : Status) (v : Word16) (d : List Byte) (s : State) :
    (s.respondWith o st v d).mem = s.mem := rfl
@[simp] theorem State.respondWith_head (o : Outputs) (st : Status) (v : Word16) (d : List Byte) (s : State) :
    (s.respondWith o st v d).head = s.head := rfl
@[simp] theorem State.respondWith_tail (o : Outputs) (st : Status) (v : Word16) (d : List Byte) (s : State) :
    (s.respondWith o st v d).tail = s.tail := rfl
@[simp] theorem State.respondWith_count (o : Outputs) (st : Status) (v : Word16) (d : List Byte) (s : State) :
    (s.respondWith o st v d).count = s.count := rfl
@[simp] theorem State.respondWith_eom (o : Outputs) (st : Status) (v : Word16) (d : List Byte) (s : State) :
    (s.respondWith o st v d).eom = s.eom := rfl
@[simp] theorem State.respondWith_frmEn (o : Outputs) (st : Status) (v : Word16) (d : List Byte) (s : State) :
    (s.respondWith o st v d).frmEn = s.frmEn := rfl
@[simp] theorem State.respondWith_msgs (o : Outputs) (st : Status) (v : Word16) (d : List Byte) (s : State) :
    (s.respondWith o st v d).msgs = s.msgs := rfl
@[simp] theorem State.respondWith_active (o : Outputs) (st : Status) (v : Word16) (d : List Byte) (s : State) :
    (s.respondWith o st v d).active = s.active := rfl
@[simp] theorem State.respondWith_rxRdy (o : Outputs) (st : Status) (v : Word16) (d : List Byte) (s : State) :
    (s.respondWith o st v d).rxRdy = s.rxRdy := rfl
@[simp] theorem State.respondWith_rxByte (o : Outputs) (st : Status) (v : Word16) (d : List Byte) (s : State) :
    (s.respondWith o st v d).rxByte = s.rxByte := rfl
@[simp] theorem State.respondWith_txFree (o : Outputs) (st : Status) (v : Word16) (d : List Byte) (s : State) :
    (s.respondWith o st v d).txFree = s.txFree := rfl
@[simp] theorem State.respondWith_held (o : Outputs) (st : Status) (v : Word16) (d : List Byte) (s : State) :
    (s.respondWith o st v d).held = none := rfl
@[simp] theorem State.respondWith_cmds (o : Outputs) (st : Status) (v : Word16) (d : List Byte) (s : State) :
    (s.respondWith o st v d).cmds = s.cmds := rfl
@[simp] theorem State.respondWith_turns (o : Outputs) (st : Status) (v : Word16) (d : List Byte) (s : State) :
    (s.respondWith o st v d).turns = s.turns := rfl
@[simp] theorem State.respondWith_draws (o : Outputs) (st : Status) (v : Word16) (d : List Byte) (s : State) :
    (s.respondWith o st v d).draws = s.draws := rfl
@[simp] theorem State.respondWith_out (o : Outputs) (st : Status) (v : Word16) (d : List Byte) (s : State) :
    (s.respondWith o st v d).out = { o with rsp := some (rspWord st v), dat := d } := rfl

/-! ### `dropOldest` -/

@[simp] theorem State.dropOldest_cfg (k : Nat) (s : State) :
    (s.dropOldest k).cfg = s.cfg := rfl
@[simp] theorem State.dropOldest_mem (k : Nat) (s : State) :
    (s.dropOldest k).mem = s.mem := rfl
@[simp] theorem State.dropOldest_head (k : Nat) (s : State) :
    (s.dropOldest k).head = addMod s.cfg.capacity s.head k := rfl
@[simp] theorem State.dropOldest_tail (k : Nat) (s : State) :
    (s.dropOldest k).tail = s.tail := rfl
@[simp] theorem State.dropOldest_count (k : Nat) (s : State) :
    (s.dropOldest k).count = s.count - k := rfl
@[simp] theorem State.dropOldest_eom (k : Nat) (s : State) :
    (s.dropOldest k).eom = s.eom := rfl
@[simp] theorem State.dropOldest_frmEn (k : Nat) (s : State) :
    (s.dropOldest k).frmEn = s.frmEn := rfl
@[simp] theorem State.dropOldest_msgs (k : Nat) (s : State) :
    (s.dropOldest k).msgs = s.msgs := rfl
@[simp] theorem State.dropOldest_active (k : Nat) (s : State) :
    (s.dropOldest k).active = s.active := rfl
@[simp] theorem State.dropOldest_rxRdy (k : Nat) (s : State) :
    (s.dropOldest k).rxRdy = s.rxRdy := rfl
@[simp] theorem State.dropOldest_rxByte (k : Nat) (s : State) :
    (s.dropOldest k).rxByte = s.rxByte := rfl
@[simp] theorem State.dropOldest_txFree (k : Nat) (s : State) :
    (s.dropOldest k).txFree = s.txFree := rfl
@[simp] theorem State.dropOldest_held (k : Nat) (s : State) :
    (s.dropOldest k).held = s.held := rfl
@[simp] theorem State.dropOldest_cmds (k : Nat) (s : State) :
    (s.dropOldest k).cmds = s.cmds := rfl
@[simp] theorem State.dropOldest_turns (k : Nat) (s : State) :
    (s.dropOldest k).turns = s.turns := rfl
@[simp] theorem State.dropOldest_draws (k : Nat) (s : State) :
    (s.dropOldest k).draws = s.draws := rfl
@[simp] theorem State.dropOldest_out (k : Nat) (s : State) :
    (s.dropOldest k).out = s.out := rfl

/-! ### `rbClear` -/

@[simp] theorem State.rbClear_cfg (s : State) :
    (s.rbClear).cfg = s.cfg := rfl
@[simp] theorem State.rbClear_mem (s : State) :
    (s.rbClear).mem = s.mem := rfl
@[simp] theorem State.rbClear_head (s : State) :
    (s.rbClear).head = 0 := rfl
@[simp] theorem State.rbClear_tail (s : State) :
    (s.rbClear).tail = 0 := rfl
@[simp] theorem State.rbClear_count (s : State) :
    (s.rbClear).count = 0 := rfl
@[simp] theorem State.rbClear_eom (s : State) :
    (s.rbClear).eom = s.eom := rfl
@[simp] theorem State.rbClear_frmEn (s : State) :
    (s.rbClear).frmEn = s.frmEn := rfl
@[simp] theorem State.rbClear_msgs (s : State) :
    (s.rbClear).msgs = s.msgs := rfl
@[simp] theorem State.rbClear_active (s : State) :
    (s.rbClear).active = s.active := rfl
@[simp] theorem State.rbClear_rxRdy (s : State) :
    (s.rbClear).rxRdy = s.rxRdy := rfl
@[simp] theorem State.rbClear_rxByte (s : State) :
    (s.rbClear).rxByte = s.rxByte := rfl
@[simp] theorem State.rbClear_txFree (s : State) :
    (s.rbClear).txFree = s.txFree := rfl
@[simp] theorem State.rbClear_held (s : State) :
    (s.rbClear).held = s.held := rfl
@[simp] theorem State.rbClear_cmds (s : State) :
    (s.rbClear).cmds = s.cmds := rfl
@[simp] theorem State.rbClear_turns (s : State) :
    (s.rbClear).turns = s.turns := rfl
@[simp] theorem State.rbClear_draws (s : State) :
    (s.rbClear).draws = s.draws := rfl
@[simp] theorem State.rbClear_out (s : State) :
    (s.rbClear).out = s.out := rfl

/-! ### `fsConsume` -/

@[simp] theorem State.fsConsume_cfg (s : State) :
    (s.fsConsume).cfg = s.cfg := rfl
@[simp] theorem State.fsConsume_mem (s : State) :
    (s.fsConsume).mem = s.mem := rfl
@[simp] theorem State.fsConsume_head (s : State) :
    (s.fsConsume).head = s.head := rfl
@[simp] theorem State.fsConsume_tail (s : State) :
    (s.fsConsume).tail = s.tail := rfl
@[simp] theorem State.fsConsume_count (s : State) :
    (s.fsConsume).count = s.count := rfl
@[simp] theorem State.fsConsume_eom (s : State) :
    (s.fsConsume).eom = s.eom := rfl
@[simp] theorem State.fsConsume_frmEn (s : State) :
    (s.fsConsume).frmEn = s.frmEn := rfl
@[simp] theorem State.fsConsume_msgs (s : State) :
    (s.fsConsume).msgs = satDec s.msgs := rfl
@[simp] theorem State.fsConsume_active (s : State) :
    (s.fsConsume).active = s.active := rfl
@[simp] theorem State.fsConsume_rxRdy (s : State) :
    (s.fsConsume).rxRdy = s.rxRdy := rfl
@[simp] theorem State.fsConsume_rxByte (s : State) :
    (s.fsConsume).rxByte = s.rxByte := rfl
@[simp] theorem State.fsConsume_txFree (s : State) :
    (s.fsConsume).txFree = s.txFree := rfl
@[simp] theorem State.fsConsume_held (s : State) :
    (s.fsConsume).held = s.held := rfl
@[simp] theorem State.fsConsume_cmds (s : State) :
    (s.fsConsume).cmds = s.cmds := rfl
@[simp] theorem State.fsConsume_turns (s : State) :
    (s.fsConsume).turns = s.turns := rfl
@[simp] theorem State.fsConsume_draws (s : State) :
    (s.fsConsume).draws = s.draws := rfl
@[simp] theorem State.fsConsume_out (s : State) :
    (s.fsConsume).out = s.out := rfl

/-! ### `fsReset` -/

@[simp] theorem State.fsReset_cfg (s : State) :
    (s.fsReset).cfg = s.cfg := rfl
@[simp] theorem State.fsReset_mem (s : State) :
    (s.fsReset).mem = s.mem := rfl
@[simp] theorem State.fsReset_head (s : State) :
    (s.fsReset).head = s.head := rfl
@[simp] theorem State.fsReset_tail (s : State) :
    (s.fsReset).tail = s.tail := rfl
@[simp] theorem State.fsReset_count (s : State) :
    (s.fsReset).count = s.count := rfl
@[simp] theorem State.fsReset_eom (s : State) :
    (s.fsReset).eom = s.eom := rfl
@[simp] theorem State.fsReset_frmEn (s : State) :
    (s.fsReset).frmEn = s.frmEn := rfl
@[simp] theorem State.fsReset_msgs (s : State) :
    (s.fsReset).msgs = 0 := rfl
@[simp] theorem State.fsReset_active (s : State) :
    (s.fsReset).active = s.active := rfl
@[simp] theorem State.fsReset_rxRdy (s : State) :
    (s.fsReset).rxRdy = s.rxRdy := rfl
@[simp] theorem State.fsReset_rxByte (s : State) :
    (s.fsReset).rxByte = s.rxByte := rfl
@[simp] theorem State.fsReset_txFree (s : State) :
    (s.fsReset).txFree = s.txFree := rfl
@[simp] theorem State.fsReset_held (s : State) :
    (s.fsReset).held = s.held := rfl
@[simp] theorem State.fsReset_cmds (s : State) :
    (s.fsReset).cmds = s.cmds := rfl
@[simp] theorem State.fsReset_turns (s : State) :
    (s.fsReset).turns = s.turns := rfl
@[simp] theorem State.fsReset_draws (s : State) :
    (s.fsReset).draws = s.draws := rfl
@[simp] theorem State.fsReset_out (s : State) :
    (s.fsReset).out = s.out := rfl

/-! ### `readRx` -/

@[simp] theorem State.readRx_cfg (s : State) :
    (s.readRx).cfg = s.cfg := rfl
@[simp] theorem State.readRx_mem (s : State) :
    (s.readRx).mem = s.mem := rfl
@[simp] theorem State.readRx_head (s : State) :
    (s.readRx).head = s.head := rfl
@[simp] theorem State.readRx_tail (s : State) :
    (s.readRx).tail = s.tail := rfl
@[simp] theorem State.readRx_count (s : State) :
    (s.readRx).count = s.count := rfl
@[simp] theorem State.readRx_eom (s : State) :
    (s.readRx).eom = s.eom := rfl
@[simp] theorem State.readRx_frmEn (s : State) :
    (s.readRx).frmEn = s.frmEn := rfl
@[simp] theorem State.readRx_msgs (s : State) :
    (s.readRx).msgs = s.msgs := rfl
@[simp] theorem State.readRx_active (s : State) :
    (s.readRx).active = s.active := rfl
@[simp] theorem State.readRx_rxRdy (s : State) :
    (s.readRx).rxRdy = false := rfl
@[simp] theorem State.readRx_rxByte (s : State) :
    (s.readRx).rxByte = s.rxByte := rfl
@[simp] theorem State.readRx_txFree (s : State) :
    (s.readRx).txFree = s.txFree := rfl
@[simp] theorem State.readRx_held (s : State) :
    (s.readRx).held = s.held := rfl
@[simp] theorem State.readRx_cmds (s : State) :
    (s.readRx).cmds = s.cmds := rfl
@[simp] theorem State.readRx_turns (s : State) :
    (s.readRx).turns = s.turns := rfl
@[simp] theorem State.readRx_draws (s : State) :
    (s.readRx).draws = s.draws := rfl
@[simp] theorem State.readRx_out (s : State) :
    (s.readRx).out = s.out := rfl

/-! ### `fsNoteByte` and `arrive` change few fields -/

/-- `fs_note_byte` writes `msgs` and nothing else (R120). -/
theorem State.fsNoteByte_eq (b : Byte) (s : State) :
    s.fsNoteByte b =
      { s with msgs := if s.frmEn && isTerm b s.eom then satInc s.cfg.msgMax s.msgs else s.msgs } := by
  unfold State.fsNoteByte; split <;> rfl

@[simp] theorem State.fsNoteByte_cfg (b : Byte) (s : State) : (s.fsNoteByte b).cfg = s.cfg := by
  rw [State.fsNoteByte_eq]
@[simp] theorem State.fsNoteByte_mem (b : Byte) (s : State) : (s.fsNoteByte b).mem = s.mem := by
  rw [State.fsNoteByte_eq]
@[simp] theorem State.fsNoteByte_head (b : Byte) (s : State) : (s.fsNoteByte b).head = s.head := by
  rw [State.fsNoteByte_eq]
@[simp] theorem State.fsNoteByte_tail (b : Byte) (s : State) : (s.fsNoteByte b).tail = s.tail := by
  rw [State.fsNoteByte_eq]
@[simp] theorem State.fsNoteByte_count (b : Byte) (s : State) : (s.fsNoteByte b).count = s.count := by
  rw [State.fsNoteByte_eq]
@[simp] theorem State.fsNoteByte_eom (b : Byte) (s : State) : (s.fsNoteByte b).eom = s.eom := by
  rw [State.fsNoteByte_eq]
@[simp] theorem State.fsNoteByte_frmEn (b : Byte) (s : State) : (s.fsNoteByte b).frmEn = s.frmEn := by
  rw [State.fsNoteByte_eq]
@[simp] theorem State.fsNoteByte_active (b : Byte) (s : State) : (s.fsNoteByte b).active = s.active := by
  rw [State.fsNoteByte_eq]
@[simp] theorem State.fsNoteByte_rxRdy (b : Byte) (s : State) : (s.fsNoteByte b).rxRdy = s.rxRdy := by
  rw [State.fsNoteByte_eq]
@[simp] theorem State.fsNoteByte_rxByte (b : Byte) (s : State) : (s.fsNoteByte b).rxByte = s.rxByte := by
  rw [State.fsNoteByte_eq]
@[simp] theorem State.fsNoteByte_txFree (b : Byte) (s : State) : (s.fsNoteByte b).txFree = s.txFree := by
  rw [State.fsNoteByte_eq]
@[simp] theorem State.fsNoteByte_held (b : Byte) (s : State) : (s.fsNoteByte b).held = s.held := by
  rw [State.fsNoteByte_eq]
@[simp] theorem State.fsNoteByte_cmds (b : Byte) (s : State) : (s.fsNoteByte b).cmds = s.cmds := by
  rw [State.fsNoteByte_eq]
@[simp] theorem State.fsNoteByte_turns (b : Byte) (s : State) : (s.fsNoteByte b).turns = s.turns := by
  rw [State.fsNoteByte_eq]
@[simp] theorem State.fsNoteByte_draws (b : Byte) (s : State) : (s.fsNoteByte b).draws = s.draws := by
  rw [State.fsNoteByte_eq]
@[simp] theorem State.fsNoteByte_out (b : Byte) (s : State) : (s.fsNoteByte b).out = s.out := by
  rw [State.fsNoteByte_eq]

@[simp] theorem State.overrun_cfg (b : Byte) (s : State) : (s.overrun b).cfg = s.cfg := by
  unfold State.overrun; split <;> rfl
@[simp] theorem State.overrun_mem (b : Byte) (s : State) : (s.overrun b).mem = s.mem := by
  unfold State.overrun; split <;> rfl
@[simp] theorem State.overrun_head (b : Byte) (s : State) : (s.overrun b).head = s.head := by
  unfold State.overrun; split <;> rfl
@[simp] theorem State.overrun_tail (b : Byte) (s : State) : (s.overrun b).tail = s.tail := by
  unfold State.overrun; split <;> rfl
@[simp] theorem State.overrun_count (b : Byte) (s : State) : (s.overrun b).count = s.count := by
  unfold State.overrun; split <;> rfl
@[simp] theorem State.overrun_eom (b : Byte) (s : State) : (s.overrun b).eom = s.eom := by
  unfold State.overrun; split <;> rfl
@[simp] theorem State.overrun_frmEn (b : Byte) (s : State) : (s.overrun b).frmEn = s.frmEn := by
  unfold State.overrun; split <;> rfl
@[simp] theorem State.overrun_msgs (b : Byte) (s : State) : (s.overrun b).msgs = s.msgs := by
  unfold State.overrun; split <;> rfl
@[simp] theorem State.overrun_active (b : Byte) (s : State) : (s.overrun b).active = s.active := by
  unfold State.overrun; split <;> rfl
@[simp] theorem State.overrun_rxRdy (b : Byte) (s : State) : (s.overrun b).rxRdy = s.rxRdy := by
  unfold State.overrun; split <;> rfl
@[simp] theorem State.overrun_txFree (b : Byte) (s : State) : (s.overrun b).txFree = s.txFree := by
  unfold State.overrun; split <;> rfl
@[simp] theorem State.overrun_held (b : Byte) (s : State) : (s.overrun b).held = s.held := by
  unfold State.overrun; split <;> rfl
@[simp] theorem State.overrun_cmds (b : Byte) (s : State) : (s.overrun b).cmds = s.cmds := by
  unfold State.overrun; split <;> rfl
@[simp] theorem State.overrun_turns (b : Byte) (s : State) : (s.overrun b).turns = s.turns := by
  unfold State.overrun; split <;> rfl
@[simp] theorem State.overrun_out (b : Byte) (s : State) : (s.overrun b).out = s.out := by
  unfold State.overrun; split <;> rfl

@[simp] theorem State.arrive_cfg (b : Byte) (s : State) : (s.arrive b).cfg = s.cfg := by
  unfold State.arrive; split <;> [split; skip] <;> simp
@[simp] theorem State.arrive_mem (b : Byte) (s : State) : (s.arrive b).mem = s.mem := by
  unfold State.arrive; split <;> [split; skip] <;> simp
@[simp] theorem State.arrive_head (b : Byte) (s : State) : (s.arrive b).head = s.head := by
  unfold State.arrive; split <;> [split; skip] <;> simp
@[simp] theorem State.arrive_tail (b : Byte) (s : State) : (s.arrive b).tail = s.tail := by
  unfold State.arrive; split <;> [split; skip] <;> simp
@[simp] theorem State.arrive_count (b : Byte) (s : State) : (s.arrive b).count = s.count := by
  unfold State.arrive; split <;> [split; skip] <;> simp
@[simp] theorem State.arrive_eom (b : Byte) (s : State) : (s.arrive b).eom = s.eom := by
  unfold State.arrive; split <;> [split; skip] <;> simp
@[simp] theorem State.arrive_frmEn (b : Byte) (s : State) : (s.arrive b).frmEn = s.frmEn := by
  unfold State.arrive; split <;> [split; skip] <;> simp
@[simp] theorem State.arrive_msgs (b : Byte) (s : State) : (s.arrive b).msgs = s.msgs := by
  unfold State.arrive; split <;> [split; skip] <;> simp
@[simp] theorem State.arrive_active (b : Byte) (s : State) : (s.arrive b).active = s.active := by
  unfold State.arrive; split <;> [split; skip] <;> simp
@[simp] theorem State.arrive_txFree (b : Byte) (s : State) : (s.arrive b).txFree = s.txFree := by
  unfold State.arrive; split <;> [split; skip] <;> simp
@[simp] theorem State.arrive_held (b : Byte) (s : State) : (s.arrive b).held = s.held := by
  unfold State.arrive; split <;> [split; skip] <;> simp
@[simp] theorem State.arrive_cmds (b : Byte) (s : State) : (s.arrive b).cmds = s.cmds := by
  unfold State.arrive; split <;> [split; skip] <;> simp
@[simp] theorem State.arrive_turns (b : Byte) (s : State) : (s.arrive b).turns = s.turns := by
  unfold State.arrive; split <;> [split; skip] <;> simp

end Sys2Proof.Machine
end

