-- ==== Sys2Proof/Laws/Contents.lean ====
section
/-! SUPPORT. The abstract content `Q` (10_state.md R25): it is read off the slots, and what each
update of the ring does to it. -/

namespace Sys2Proof.Machine

/-! ### `Q` and the slots -/

theorem filterMap_length_of_all_some {α β : Type} (f : α → Option β) :
    ∀ l : List α, (∀ x ∈ l, (f x).isSome = true) → (l.filterMap f).length = l.length
  | [], _ => rfl
  | x :: l, h => by
    obtain ⟨b, hb⟩ := Option.isSome_iff_exists.1 (h x (by simp))
    simp [hb,
      filterMap_length_of_all_some f l fun y hy => h y (List.mem_cons_of_mem _ hy)]

theorem filterMap_getElem_of_all_some {α β : Type} (f : α → Option β) :
    ∀ (l : List α) (i : Nat), (∀ x ∈ l, (f x).isSome = true) →
      (l.filterMap f)[i]? = l[i]?.bind f
  | [], _, _ => by simp
  | x :: l, 0, h => by
    obtain ⟨b, hb⟩ := Option.isSome_iff_exists.1 (h x (by simp))
    simp [hb]
  | x :: l, i + 1, h => by
    obtain ⟨b, hb⟩ := Option.isSome_iff_exists.1 (h x (by simp))
    simp [hb,
      filterMap_getElem_of_all_some f l i fun y hy => h y (List.mem_cons_of_mem _ hy)]

section
variable {s t : State}

theorem RingInv.q_isSome (h : RingInv s) : ∀ i ∈ List.range s.count, (s.q i).isSome = true :=
  fun i hi => h.occupied i (List.mem_range.1 hi)

/-- `Q` has `count` bytes. -/
theorem RingInv.contents_length (h : RingInv s) : s.contents.length = s.count := by
  simp [State.contents, filterMap_length_of_all_some _ _ h.q_isSome]

/-- The byte at place `i` of `Q` is `q(i)`. -/
theorem RingInv.contents_get (h : RingInv s) {i : Nat} (hi : i < s.count) : s.contents[i]? = s.q i := by
  simp [State.contents, filterMap_getElem_of_all_some _ _ i h.q_isSome,
    List.getElem?_range hi]

theorem RingInv.contents_get_none (h : RingInv s) {i : Nat} (hi : s.count ≤ i) :
    s.contents[i]? = none := by
  simp [h.contents_length, hi]

/-- A list that reads as the slots do is `Q`. -/
theorem contents_eq_of (l : List Byte) (hl : l.length = s.count)
    (hq : ∀ i, i < s.count → s.q i = l[i]?) : s.contents = l := by
  have hs : ∀ i ∈ List.range s.count, (s.q i).isSome = true := fun i hi => by
    have hi := List.mem_range.1 hi
    rw [hq i hi, List.getElem?_eq_getElem (hl ▸ hi)]; rfl
  refine List.ext_getElem? fun i => ?_
  rw [State.contents, filterMap_getElem_of_all_some _ _ i hs]
  by_cases hi : i < s.count
  · simp [List.getElem?_range hi, hq i hi]
  · simp [hl, Nat.le_of_not_lt hi]

/-- Only `cfg`, `mem`, `head` and `count` matter for `Q`. -/
theorem contents_congr (hc : t.cfg = s.cfg) (hm : t.mem = s.mem) (hh : t.head = s.head)
    (hn : t.count = s.count) : t.contents = s.contents := by
  have hq : t.q = s.q := by funext i; simp [State.q, hc, hm, hh]
  simp [State.contents, hq, hn]

theorem contents_of_count_zero (h : s.count = 0) : s.contents = [] := by
  simp [State.contents, h]

/-! ### Updates of the ring -/

theorem RingInv.q_dropOldest (h : RingInv s) {k i : Nat} (hk : k ≤ s.count) (hi : i < s.count - k) :
    (s.dropOldest k).q i = s.q (k + i) := by
  have hc := h.count_le
  simp only [State.q, State.dropOldest_mem, State.dropOldest_cfg, State.dropOldest_head]
  rw [addMod_addMod h.head_lt (by omega)]

/-- Removing the `k` oldest bytes drops the first `k` of `Q`. -/
theorem RingInv.contents_dropOldest (h : RingInv s) {k : Nat} (hk : k ≤ s.count) :
    (s.dropOldest k).contents = s.contents.drop k := by
  refine contents_eq_of _ (by simp [h.contents_length]) fun i hi => ?_
  simp only [State.dropOldest_count] at hi
  rw [h.q_dropOldest hk hi, List.getElem?_drop, h.contents_get (by omega)]

/-- The state a successful `rb_push` leaves. -/
def State.pushed (b : Byte) (s : State) : State :=
  { s with
    mem := s.mem.write s.tail b
    tail := incMod s.cfg.capacity s.tail
    count := s.count + 1 }

theorem RingInv.q_pushed (h : RingInv s) (b : Byte) (hn : s.count < s.cfg.capacity) {i : Nat}
    (hi : i ≤ s.count) : (s.pushed b).q i = if i = s.count then some b else s.q i := by
  simp only [State.q, State.pushed, h.tail_eq]
  split
  · rename_i he; subst he; simp
  · rename_i he
    exact Memory.read_write_other _ _ (addMod_ne (by omega) hn he)

/-- A successful push appends its byte to `Q`. -/
theorem RingInv.contents_pushed (h : RingInv s) (b : Byte) (hn : s.count < s.cfg.capacity) :
    (s.pushed b).contents = s.contents ++ [b] := by
  refine contents_eq_of _ (by simp [h.contents_length, State.pushed]) fun i hi => ?_
  have hi : i ≤ s.count := by simp only [State.pushed] at hi; omega
  rw [h.q_pushed b hn hi]
  split
  · rename_i he
    rw [List.getElem?_append_right (by simp [h.contents_length, he])]
    simp [h.contents_length, he]
  · rename_i he
    have hlt : i < s.count := by omega
    rw [List.getElem?_append_left (by simpa [h.contents_length] using hlt), h.contents_get hlt]

/-! ### The invariant over updates -/

/-- The invariant reads only these fields. -/
theorem RingInv.congr (h : RingInv s) (hc : t.cfg = s.cfg) (hm : t.mem = s.mem) (hh : t.head = s.head)
    (ht : t.tail = s.tail) (hn : t.count = s.count) (hg : t.msgs = s.msgs)
    (ha : t.active = s.active) (hr : t.active = false → t.rxRdy = false) : RingInv t where
  mem_wf := hm ▸ h.mem_wf
  mem_within := hm ▸ hc ▸ h.mem_within
  count_le := hn ▸ hc ▸ h.count_le
  head_lt := hh ▸ hc ▸ h.head_lt
  tail_lt := ht ▸ hc ▸ h.tail_lt
  tail_eq := by rw [ht, hc, hh, hn]; exact h.tail_eq
  occupied := by
    have hq : t.q = s.q := by funext i; simp [State.q, hc, hm, hh]
    rw [hq, hn]; exact h.occupied
  msgs_le := hg ▸ hc ▸ h.msgs_le
  suspended := fun hf => by
    obtain ⟨h1, h2, -⟩ := h.suspended (ha ▸ hf)
    exact ⟨hn ▸ h1, hg ▸ h2, hr hf⟩

/-- Changing the counter within its range keeps the invariant of an Active channel. -/
theorem RingInv.with_msgs (h : RingInv s) (ha : s.active = true) {m : Nat} (hm : m ≤ s.cfg.msgMax) :
    RingInv { s with msgs := m } where
  mem_wf := h.mem_wf
  mem_within := h.mem_within
  count_le := h.count_le
  head_lt := h.head_lt
  tail_lt := h.tail_lt
  tail_eq := h.tail_eq
  occupied := h.occupied
  msgs_le := hm
  suspended := fun hf => by rw [ha] at hf; cases hf

theorem RingInv.dropOldest (h : RingInv s) (ha : s.active = true) {k : Nat} (hk : k ≤ s.count) :
    RingInv (s.dropOldest k) := by
  have hc := h.count_le
  exact {
    mem_wf := h.mem_wf
    mem_within := h.mem_within
    count_le := by simp; omega
    head_lt := addMod_lt h.head_lt (by omega)
    tail_lt := h.tail_lt
    tail_eq := by
      simp only [State.dropOldest_tail, State.dropOldest_cfg, State.dropOldest_head,
        State.dropOldest_count]
      rw [addMod_addMod h.head_lt (by omega), h.tail_eq]
      congr 1; omega
    occupied := fun i hi => by
      simp only [State.dropOldest_count] at hi
      rw [h.q_dropOldest hk hi]
      exact h.occupied _ (by omega)
    msgs_le := h.msgs_le
    suspended := fun hf => by rw [State.dropOldest_active, ha] at hf; cases hf }

theorem RingInv.pushed (h : RingInv s) (ha : s.active = true) (b : Byte)
    (hn : s.count < s.cfg.capacity) : RingInv (s.pushed b) where
  mem_wf := Memory.wf_write h.mem_wf _ _
  mem_within := Memory.within_write h.mem_within _ h.tail_lt
  count_le := hn
  head_lt := h.head_lt
  tail_lt := incMod_lt h.tail_lt
  tail_eq := by
    simp only [State.pushed, h.tail_eq]
    exact incMod_addMod h.head_lt hn
  occupied := fun i hi => by
    have hi : i < s.count + 1 := hi
    rw [h.q_pushed b hn (by omega)]
    split
    · rfl
    · exact h.occupied i (by omega)
  msgs_le := h.msgs_le
  suspended := fun hf => by
    have hf : s.active = false := hf
    rw [ha] at hf; cases hf

/-- An emptied ring with a zero counter meets the invariant whatever the channel state, as long as
no byte waits while Suspended. -/
theorem RingInv.cleared (h : RingInv s) (hc : t.cfg = s.cfg) (hm : t.mem = s.mem) (hh : t.head = 0)
    (ht : t.tail = 0) (hn : t.count = 0) (hg : t.msgs = 0)
    (hr : t.active = false → t.rxRdy = false) : RingInv t where
  mem_wf := hm ▸ h.mem_wf
  mem_within := hm ▸ hc ▸ h.mem_within
  count_le := by omega
  head_lt := by rw [hh]; exact t.cfg.capacity_pos
  tail_lt := by rw [ht]; exact t.cfg.capacity_pos
  tail_eq := by rw [hh, ht, hn, addMod_zero t.cfg.capacity_pos]
  occupied := by omega
  msgs_le := by omega
  suspended := fun hf => ⟨hn, hg, hr hf⟩

end

end Sys2Proof.Machine
end

