-- ==== Sys2Proof/Laws/PerInstr.lean ====
section
/-! SUPPORT. Families of statements about every operation as syntax, one lemma per constructor. -/

namespace Sys2Proof.Laws

/-! ### The encoder writes the row of the opcode table -/

/-- The word the encoder writes for `i` selects the row of `i` in the opcode table
(30_encoding.md R78, R82). -/
def EncodesRow.Statement (i : Instr) : Prop := Machine.selectsRow i (encode i) = true

/-- The mask of a command row keeps `OPC` and drops `ARG`. -/
theorem opcMask_toNat (opc : BitVec 8) (arg : Word16) :
    ((opc ++ arg) &&& 0xFF0000#24).toNat = opc.toNat * 65536 := by
  have hm : (0xFF0000#24 : BitVec (8 + 16)) = 0xFF#8 ++ 0#16 := rfl
  have h : (opc ++ arg) &&& 0xFF0000#24 = (opc &&& 0xFF#8) ++ (arg &&& 0#16) :=
    (congrArg ((opc ++ arg) &&& ·) hm).trans
      (BitVec.and_append (x₁ := opc) (x₂ := 0xFF#8) (y₁ := arg) (y₂ := 0#16))
  have h8 : opc &&& 0xFF#8 = opc := BitVec.and_allOnes (x := opc)
  have h16 : arg &&& 0#16 = 0#16 := BitVec.and_zero
  rw [h, h8, h16, BitVec.toNat_append]
  simp [Nat.shiftLeft_eq]

theorem EncodesRow.of_cmd {i : Instr} {opc : BitVec 8} {arg : Word16}
    (he : encode i = cmdWord opc arg) (hm : opc.toNat * 65536 = Machine.rowMatch i) :
    EncodesRow.Statement i := by
  rw [EncodesRow.Statement, he, cmdWord, Machine.selectsRow, opcMask_toNat, hm]
  exact decide_eq_true rfl

theorem EncodesRow.resume : EncodesRow.Statement .resume :=
  EncodesRow.of_cmd rfl rfl
theorem EncodesRow.suspend : EncodesRow.Statement .suspend :=
  EncodesRow.of_cmd rfl rfl
theorem EncodesRow.clear : EncodesRow.Statement .clear :=
  EncodesRow.of_cmd rfl rfl
theorem EncodesRow.pop1 : EncodesRow.Statement .pop1 :=
  EncodesRow.of_cmd rfl rfl
theorem EncodesRow.get (n : Nat) : EncodesRow.Statement (.get n) :=
  EncodesRow.of_cmd rfl rfl
theorem EncodesRow.getmsg (n : Nat) : EncodesRow.Statement (.getmsg n) :=
  EncodesRow.of_cmd rfl rfl
theorem EncodesRow.put (b : Byte) : EncodesRow.Statement (.put b) :=
  EncodesRow.of_cmd rfl rfl
theorem EncodesRow.get1 (f : Bool) : EncodesRow.Statement (.get1 f) :=
  EncodesRow.of_cmd rfl rfl
theorem EncodesRow.seteom (b : Byte) : EncodesRow.Statement (.seteom b) :=
  EncodesRow.of_cmd rfl rfl
theorem EncodesRow.setfrm (f : Bool) : EncodesRow.Statement (.setfrm f) :=
  EncodesRow.of_cmd rfl rfl
theorem EncodesRow.rdreg (r : Nat) : EncodesRow.Statement (.rdreg r) :=
  EncodesRow.of_cmd rfl rfl
theorem EncodesRow.rxevt : EncodesRow.Statement .rxevt := rfl

end Sys2Proof.Laws
end

