-- ==== Sys2Proof/Laws/Ring.lean ====
section
/-! SUPPORT. What each ring primitive answers in a state with the invariant, told on the abstract
content `Q` (40_ring_buffer.md R100 to R104), and what it can change at all in any state. -/

namespace Sys2Proof.Machine

section
variable {s t : State}

theorem readSlot_ok {i : Nat} {b : Byte} (hi : i < s.cfg.capacity) (hb : s.mem.read i = some b) :
    readSlot s i = .ok b := by
  simp [readSlot, hi, hb]

/-- An occupied slot reads as its place in `Q`. -/
theorem RingInv.readQ_eq (h : RingInv s) {i : Nat} {b : Byte} (hb : s.contents[i]? = some b) :
    readQ s i = .ok b := by
  have hi : i < s.count := by
    have := (List.getElem?_eq_some_iff.1 hb).1
    rwa [h.contents_length] at this
  have hc := h.count_le
  exact readSlot_ok (addMod_lt h.head_lt (by omega)) ((h.contents_get hi).symm.trans hb)

theorem RingInv.readRun_eq (h : RingInv s) :
    ∀ (k i : Nat), i + k ≤ s.count → readRun s i k = .ok ((s.contents.drop i).take k)
  | 0, i, _ => by simp [readRun]
  | k + 1, i, hk => by
    have hlt : i < s.contents.length := by rw [h.contents_length]; omega
    have hb := List.getElem?_eq_getElem hlt
    rw [readRun, h.readQ_eq hb, List.drop_eq_getElem_cons hlt]
    simp only [h.readRun_eq k (i + 1) (by omega), List.take_succ_cons]

/-- The scan finds the first terminator of its stretch of `Q`. -/
theorem RingInv.scanTerm_eq (h : RingInv s) (term : Byte) :
    ∀ (n i : Nat), i + n ≤ s.count →
      scanTerm s term i n =
        .ok ((((s.contents.drop i).take n).findIdx? (isTerm · term)).map (· + i))
  | 0, i, _ => by simp [scanTerm]
  | n + 1, i, hn => by
    have hlt : i < s.contents.length := by rw [h.contents_length]; omega
    have hb := List.getElem?_eq_getElem hlt
    rw [scanTerm, h.readQ_eq hb, List.drop_eq_getElem_cons hlt]
    simp only [List.take_succ_cons, List.findIdx?_cons]
    split
    · simp
    · rw [h.scanTerm_eq term n (i + 1) (by omega), Option.map_map]
      congr 2; funext j; simp; omega

/-! ### Push -/

theorem rbPush_full (b : Byte) (h : s.count = s.cfg.capacity) : rbPush b s = .ok (false, s) := by
  simp [rbPush, h]

theorem rbPush_room (b : Byte) (h : s.count ≠ s.cfg.capacity) (ht : s.tail < s.cfg.capacity) :
    rbPush b s = .ok (true, s.pushed b) := by
  simp [rbPush, h, writeSlot, ht, State.pushed]

/-- All that a push can do. -/
theorem rbPush_cases {b : Byte} {r : Bool × State} (h : rbPush b s = .ok r) :
    (r = (false, s) ∧ s.count = s.cfg.capacity) ∨
      (r = (true, s.pushed b) ∧ s.count ≠ s.cfg.capacity ∧ s.tail < s.cfg.capacity) := by
  unfold rbPush at h
  split at h
  · rename_i hf; cases h; exact .inl ⟨rfl, hf⟩
  · rename_i hf
    unfold writeSlot at h
    split at h
    · cases h
    · rename_i hw
      split at hw
      · rename_i ht; cases hw; cases h; exact .inr ⟨rfl, hf, ht⟩
      · cases hw

/-! ### Pops -/

theorem RingInv.rbPopOne_eq (h : RingInv s) :
    rbPopOne s =
      match s.contents with
      | [] => .ok (none, s)
      | b :: _ => .ok (some b, s.dropOldest 1) := by
  have hl := h.contents_length
  cases hq : s.contents with
  | nil =>
    rw [hq] at hl
    simp [rbPopOne, ← hl]
  | cons b q =>
    rw [hq] at hl
    have h0 : s.count ≠ 0 := by simp at hl; omega
    have hb : readSlot s s.head = .ok b := by
      have := h.readQ_eq (i := 0) (b := b) (by simp [hq])
      rwa [readQ, addMod_zero h.head_lt] at this
    simp [rbPopOne, h0, hb, State.dropOldest, addMod_one h.head_lt]

theorem RingInv.rbPopUpTo_eq (h : RingInv s) (n : Nat) :
    rbPopUpTo n s =
      .ok (min n s.count, s.contents.take n, s.dropOldest (min n s.count)) := by
  have hk : s.contents.take (min n s.count) = s.contents.take n := by
    rw [← h.contents_length, ← List.take_take, List.take_length]
  simp [rbPopUpTo, h.readRun_eq (min n s.count) 0 (by omega), hk]

/-- The window scan of GETMSG. -/
theorem RingInv.window_eq (h : RingInv s) (term : Byte) (n : Nat) :
    scanTerm s term 0 (min n s.count) = .ok ((s.contents.take n).findIdx? (isTerm · term)) := by
  have hk : s.contents.take (min n s.count) = s.contents.take n := by
    rw [← h.contents_length, ← List.take_take, List.take_length]
  rw [h.scanTerm_eq term _ 0 (by omega)]
  simp [hk]

/-- Found (R103): the bytes up to and including the first terminator of the window. -/
theorem RingInv.rbPopUntilTerm_found (h : RingInv s) {term : Byte} {n p : Nat}
    (hp : (s.contents.take n).findIdx? (isTerm · term) = some p) :
    rbPopUntilTerm term n s =
      .ok (.found (s.contents.take (p + 1)), s.dropOldest (p + 1)) := by
  have hlt : p + 1 ≤ s.count := by
    have := (List.findIdx?_eq_some_iff_getElem.1 hp).1
    simp [h.contents_length] at this
    omega
  simp [rbPopUntilTerm, h.window_eq, hp, h.readRun_eq (p + 1) 0 (by omega)]

/-- Not found under KEEP (R103): nothing is removed. -/
theorem RingInv.rbPopUntilTerm_keep (h : RingInv s) {term : Byte} {n : Nat}
    (hk : s.cfg.oversize = .keep)
    (hp : (s.contents.take n).findIdx? (isTerm · term) = none) :
    rbPopUntilTerm term n s = .ok (.notFound false, s) := by
  simp [rbPopUntilTerm, h.window_eq, hp, hk]

/-- Not found under DROP (R104): the oversized message goes, if its end is resident. -/
theorem RingInv.rbPopUntilTerm_drop (h : RingInv s) {term : Byte} {n : Nat}
    (hk : s.cfg.oversize = .drop)
    (hp : (s.contents.take n).findIdx? (isTerm · term) = none) :
    rbPopUntilTerm term n s =
      match s.contents.findIdx? (isTerm · term) with
      | none => .ok (.notFound false, s)
      | some p => .ok (.notFound true, s.dropOldest (p + 1)) := by
  have hw : min n s.count + (s.count - min n s.count) ≤ s.count := by omega
  have hl := h.contents_length
  have hdt : (s.contents.drop (min n s.count)).take (s.count - min n s.count) =
      s.contents.drop (min n s.count) := by
    apply List.take_of_length_le; simp [hl]
  have hsplit : s.contents.findIdx? (isTerm · term) =
      ((s.contents.drop (min n s.count)).findIdx? (isTerm · term)).map (· + min n s.count) := by
    have hk' : s.contents.take (min n s.count) = s.contents.take n := by
      rw [← hl, ← List.take_take, List.take_length]
    conv_lhs => rw [← List.take_append_drop (min n s.count) s.contents]
    rw [List.findIdx?_append, hk', hp, List.length_take, hl]
    cases (s.contents.drop (min n s.count)).findIdx? (isTerm · term) <;> simp
  simp only [rbPopUntilTerm, h.window_eq, hp, hk, rbDropOversize,
    h.scanTerm_eq term _ _ hw, hdt, ← hsplit]
  cases s.contents.findIdx? (isTerm · term) <;> rfl

/-! ### What the pops can change, in any state -/

/-- All that POP1's primitive can do. -/
theorem rbPopOne_cases {r : Option Byte × State} (h : rbPopOne s = .ok r) :
    (r = (none, s) ∧ s.count = 0) ∨
      ∃ b, readSlot s s.head = .ok b ∧ s.count ≠ 0 ∧
        r = (some b, { s with head := incMod s.cfg.capacity s.head, count := s.count - 1 }) := by
  unfold rbPopOne at h
  split at h
  · rename_i h0; cases h; exact .inl ⟨rfl, h0⟩
  · rename_i h0
    split at h
    · cases h
    · rename_i b hb; cases h; exact .inr ⟨b, hb, h0, rfl⟩

/-- All that GET's primitive can do. -/
theorem rbPopUpTo_cases {n : Nat} {r : Nat × List Byte × State} (h : rbPopUpTo n s = .ok r) :
    ∃ d, readRun s 0 (min n s.count) = .ok d ∧
      r = (min n s.count, d, s.dropOldest (min n s.count)) := by
  simp only [rbPopUpTo] at h
  split at h
  · cases h
  · rename_i d hd; cases h; exact ⟨d, hd, rfl⟩

/-- All that GETMSG's primitive can do: a run up to a terminator found in the window, a dropped run
that ends past a window without one, or nothing, with no terminator in the window. -/
theorem rbPopUntilTerm_cases {term : Byte} {n : Nat} {r : PopMsg × State}
    (h : rbPopUntilTerm term n s = .ok r) :
    (∃ p d, scanTerm s term 0 (min n s.count) = .ok (some p) ∧
        readRun s 0 (p + 1) = .ok d ∧ r = (.found d, s.dropOldest (p + 1))) ∨
      (∃ p, s.cfg.oversize = .drop ∧ scanTerm s term 0 (min n s.count) = .ok none ∧
        scanTerm s term (min n s.count) (s.count - min n s.count) = .ok (some p) ∧
        r = (.notFound true, s.dropOldest (p + 1))) ∨
      (scanTerm s term 0 (min n s.count) = .ok none ∧ r = (.notFound false, s)) := by
  simp only [rbPopUntilTerm] at h
  split at h
  · cases h
  · rename_i p hp
    split at h
    · cases h
    · rename_i d hd; cases h; exact .inl ⟨p, d, hp, hd, rfl⟩
  · rename_i hw
    split at h
    · cases h; exact .inr (.inr ⟨hw, rfl⟩)
    · rename_i hk
      unfold rbDropOversize at h
      split at h
      · cases h
      · cases h; exact .inr (.inr ⟨hw, rfl⟩)
      · rename_i p hp; cases h; exact .inr (.inl ⟨p, hk, hw, hp, rfl⟩)

/-- A scan looks only at places of its stretch. -/
theorem scanTerm_bounds {term : Byte} :
    ∀ {n i p : Nat}, scanTerm s term i n = .ok (some p) → i ≤ p ∧ p < i + n
  | 0, i, p, h => by simp [scanTerm] at h
  | n + 1, i, p, h => by
    rw [scanTerm] at h
    split at h
    · cases h
    · split at h
      · cases h; omega
      · have := scanTerm_bounds h; omega

/-- A scan that finds finds the first terminator of its stretch of `Q`. -/
theorem RingInv.scanTerm_first (h : RingInv s) {term : Byte} {i n p : Nat} (hb : i + n ≤ s.count)
    (hs : scanTerm s term i n = .ok (some p)) :
    s.contents[p]? = some term ∧ ∀ j, i ≤ j → j < p → s.contents[j]? ≠ some term := by
  induction n generalizing i with
  | zero => simp [scanTerm] at hs
  | succ n ih =>
    have hl := h.contents_length
    have hg := List.getElem?_eq_getElem (l := s.contents) (i := i) (by omega)
    rw [scanTerm, h.readQ_eq hg] at hs
    simp only at hs
    by_cases ht : isTerm (s.contents[i]'(by omega)) term = true
    · rw [if_pos ht] at hs
      cases hs
      simp only [isTerm, decide_eq_true_eq] at ht
      exact ⟨by rw [hg, ht], fun j h1 h2 => by omega⟩
    · rw [if_neg ht] at hs
      obtain ⟨h1, h2⟩ := ih (i := i + 1) (by omega) hs
      refine ⟨h1, fun j h3 h4 => ?_⟩
      by_cases hj : j = i
      · subst hj; rw [hg]; simpa [isTerm] using ht
      · exact h2 j (by omega) h4

/-- A scan that finds nothing passed over no terminator. -/
theorem RingInv.scanTerm_missing (h : RingInv s) {term : Byte} {i n : Nat} (hb : i + n ≤ s.count)
    (hs : scanTerm s term i n = .ok none) :
    ∀ j, i ≤ j → j < i + n → s.contents[j]? ≠ some term := by
  induction n generalizing i with
  | zero => omega
  | succ n ih =>
    have hl := h.contents_length
    have hg := List.getElem?_eq_getElem (l := s.contents) (i := i) (by omega)
    rw [scanTerm, h.readQ_eq hg] at hs
    simp only at hs
    by_cases ht : isTerm (s.contents[i]'(by omega)) term = true
    · rw [if_pos ht] at hs; cases hs
    · rw [if_neg ht] at hs
      intro j h3 h4
      by_cases hj : j = i
      · subst hj; rw [hg]; simpa [isTerm] using ht
      · exact ih (i := i + 1) (by omega) hs j (by omega) (by omega)

end

end Sys2Proof.Machine
end

