-- ==== Sys2Proof/Laws/Step.lean ====
section
/-! SUPPORT. Once and for all: what a step can do, and what each meaning that pops or pushes can
do. -/

namespace Sys2Proof.Machine

section
variable {s t : State}

/-! ### The shape of a step -/

/-- `t` differs from `s` at most in the schedule and in the command it has fetched. -/
structure SameBlock (s t : State) : Prop where
  cfg : t.cfg = s.cfg
  mem : t.mem = s.mem
  head : t.head = s.head
  tail : t.tail = s.tail
  count : t.count = s.count
  eom : t.eom = s.eom
  frmEn : t.frmEn = s.frmEn
  msgs : t.msgs = s.msgs
  active : t.active = s.active
  rxRdy : t.rxRdy = s.rxRdy
  rxByte : t.rxByte = s.rxByte
  txFree : t.txFree = s.txFree
  draws : t.draws = s.draws
  out : t.out = s.out

theorem SameBlock.refl (s : State) : SameBlock s s :=
  ⟨rfl, rfl, rfl, rfl, rfl, rfl, rfl, rfl, rfl, rfl, rfl, rfl, rfl, rfl⟩

theorem SameBlock.turns (s : State) (ts : List Turn) : SameBlock s { s with turns := ts } :=
  ⟨rfl, rfl, rfl, rfl, rfl, rfl, rfl, rfl, rfl, rfl, rfl, rfl, rfl, rfl⟩

theorem SameBlock.trans {u : State} (h : SameBlock s t) (h' : SameBlock t u) : SameBlock s u where
  cfg := h'.cfg.trans h.cfg
  mem := h'.mem.trans h.mem
  head := h'.head.trans h.head
  tail := h'.tail.trans h.tail
  count := h'.count.trans h.count
  eom := h'.eom.trans h.eom
  frmEn := h'.frmEn.trans h.frmEn
  msgs := h'.msgs.trans h.msgs
  active := h'.active.trans h.active
  rxRdy := h'.rxRdy.trans h.rxRdy
  rxByte := h'.rxByte.trans h.rxByte
  txFree := h'.txFree.trans h.txFree
  draws := h'.draws.trans h.draws
  out := h'.out.trans h.out

theorem SameBlock.inv (h : SameBlock s t) (hi : RingInv s) : RingInv t :=
  hi.congr h.cfg h.mem h.head h.tail h.count h.msgs h.active fun hf => by
    rw [h.rxRdy]; exact (hi.suspended (h.active ▸ hf)).2.2

theorem SameBlock.contents (h : SameBlock s t) : t.contents = s.contents :=
  contents_congr h.cfg h.mem h.head h.count

/-- A step of the Line Driver, an illegal word, or a turn with nothing to do: the ring, the framing
state and the channel state stay, and nothing but ILLEGAL is answered. -/
structure QuietStep (s t : State) : Prop where
  cfg : t.cfg = s.cfg
  mem : t.mem = s.mem
  head : t.head = s.head
  tail : t.tail = s.tail
  count : t.count = s.count
  eom : t.eom = s.eom
  frmEn : t.frmEn = s.frmEn
  msgs : t.msgs = s.msgs
  active : t.active = s.active
  rxRdy : t.rxRdy = s.rxRdy ∨ (s.active = true ∧ t.rxRdy = true)
  rsp : t.out.rsp = none ∨ t.out.rsp = some (rspWord .illegal 0#16)
  dat : t.out.dat = []
  rxRd : t.out.rxRd = false
  ldCfg : t.out.ldCfg = none
  tx : t.out.tx = none
  pushFail : t.out.pushFail = false

theorem QuietStep.inv (h : QuietStep s t) (hi : RingInv s) : RingInv t :=
  hi.congr h.cfg h.mem h.head h.tail h.count h.msgs h.active fun hf => by
    have hs := hi.suspended (h.active ▸ hf)
    rcases h.rxRdy with hr | ⟨ha, -⟩
    · rw [hr]; exact hs.2.2
    · rw [h.active, ha] at hf; cases hf

theorem QuietStep.contents (h : QuietStep s t) : t.contents = s.contents :=
  contents_congr h.cfg h.mem h.head h.count

theorem quiet_emit (h : SameBlock s t) : QuietStep s (t.emit {}) :=
  ⟨h.cfg, h.mem, h.head, h.tail, h.count, h.eom, h.frmEn, h.msgs, h.active, .inl h.rxRdy,
    .inl rfl, rfl, rfl, rfl, rfl, rfl⟩

theorem quiet_illegal (h : SameBlock s t) : QuietStep s t.answerIllegal :=
  ⟨h.cfg, h.mem, h.head, h.tail, h.count, h.eom, h.frmEn, h.msgs, h.active, .inl h.rxRdy,
    .inr rfl, rfl, rfl, rfl, rfl, rfl⟩

theorem quiet_arrive (b : Byte) (h : SameBlock s t) : QuietStep s (t.arrive b) := by
  have hr : (t.arrive b).rxRdy = s.rxRdy ∨ (s.active = true ∧ (t.arrive b).rxRdy = true) := by
    unfold State.arrive
    split
    · rename_i ha
      exact .inr ⟨h.active ▸ ha, by split <;> simp_all⟩
    · exact .inl h.rxRdy
  have ho : (t.arrive b).out = {} := by
    unfold State.arrive; split <;> [split; skip] <;> rfl
  exact ⟨by simp [h.cfg], by simp [h.mem], by simp [h.head], by simp [h.tail], by simp [h.count],
    by simp [h.eom], by simp [h.frmEn], by simp [h.msgs], by simp [h.active], hr,
    .inl (by rw [ho]), by rw [ho], by rw [ho], by rw [ho], by rw [ho], by rw [ho]⟩

theorem quiet_lineTxFree (v : Bool) (h : SameBlock s t) : QuietStep s (t.lineTxFree v) :=
  ⟨h.cfg, h.mem, h.head, h.tail, h.count, h.eom, h.frmEn, h.msgs, h.active, .inl h.rxRdy,
    .inl rfl, rfl, rfl, rfl, rfl, rfl⟩

/-- What fetching a command does. -/
theorem takeCommand_same {w : Word24} (h : s.takeCommand = some (w, t)) : SameBlock s t := by
  unfold State.takeCommand at h
  split at h
  · cases h; exact .refl _
  · split at h
    · cases h
    · cases h; exact ⟨rfl, rfl, rfl, rfl, rfl, rfl, rfl, rfl, rfl, rfl, rfl, rfl, rfl, rfl⟩

/-- What a turn of the consumer can do: run the next command, or a quiet step. -/
theorem consumerTurn_cases (s : State) :
    (∃ i s0, s.nextCommand = some i ∧ SameBlock s s0 ∧ consumerTurn s = exec i s0) ∨
      (s.nextCommand = none ∧ ∃ t, consumerTurn s = .next t ∧ QuietStep s t) := by
  unfold consumerTurn State.nextCommand
  cases ht : s.takeCommand with
  | none => exact .inr ⟨rfl, _, rfl, quiet_emit (.refl s)⟩
  | some p =>
    obtain ⟨w, s0⟩ := p
    have hs := takeCommand_same ht
    cases hd : decode (.cmd w) with
    | ok i => exact .inl ⟨i, s0, by simp [hd], hs, by simp [hd]⟩
    | error e => exact .inr ⟨by simp [hd], s0.answerIllegal, by simp [hd], quiet_illegal hs⟩

/-- The event word decodes to RXEVT exactly when a byte is pending. -/
theorem decode_eventWord (s : State) :
    decode (.evt s.eventWord) = if s.rxRdy then .ok .rxevt else .error .nothingPending := by
  have : s.eventWord.getLsbD 8 = s.rxRdy := by
    rw [State.eventWord, BitVec.getLsbD_append]; simp
  rw [decode, decodeEvt, this]

@[simp] theorem nextEvent_eq (s : State) :
    s.nextEvent = if s.rxRdy then some .rxevt else none := by
  rw [State.nextEvent, decode_eventWord]
  cases s.rxRdy <;> rfl

/-- What a turn of the producer can do: RXEVT if a byte is pending, else a quiet step. -/
theorem producerTurn_cases (s : State) :
    (s.nextEvent = some .rxevt ∧ producerTurn s = exec .rxevt s) ∨
      (s.nextEvent = none ∧ producerTurn s = .next (s.emit {})) := by
  unfold producerTurn
  rw [nextEvent_eq, decode_eventWord]
  cases s.rxRdy <;> simp

/-! One equation of `step` and of `nextInstr` per form of the schedule. -/

theorem step_nil (h : s.turns = []) : step s = unscheduledTurn s := by simp [step, h]

theorem step_consumer {ts : List Turn} (h : s.turns = .consumer :: ts) :
    step s = consumerTurn { s with turns := ts } := by simp [step, h]

theorem step_producer {ts : List Turn} (h : s.turns = .producer :: ts) :
    step s = producerTurn { s with turns := ts } := by simp [step, h]

theorem step_arrive {b : Byte} {ts : List Turn} (h : s.turns = .arrive b :: ts) :
    step s = .next (({ s with turns := ts } : State).arrive b) := by simp [step, h]

theorem step_txFree {v : Bool} {ts : List Turn} (h : s.turns = .txFree v :: ts) :
    step s = .next (({ s with turns := ts } : State).lineTxFree v) := by simp [step, h]

theorem nextInstr_nil (h : s.turns = []) :
    s.nextInstr = if s.evtReq then s.nextEvent else s.nextCommand := by simp [State.nextInstr, h]

theorem nextInstr_consumer {ts : List Turn} (h : s.turns = .consumer :: ts) :
    s.nextInstr = s.nextCommand := by simp [State.nextInstr, h]

theorem nextInstr_producer {ts : List Turn} (h : s.turns = .producer :: ts) :
    s.nextInstr = s.nextEvent := by simp [State.nextInstr, h]

theorem nextInstr_arrive {b : Byte} {ts : List Turn} (h : s.turns = .arrive b :: ts) :
    s.nextInstr = none := by simp [State.nextInstr, h]

theorem nextInstr_txFree {v : Bool} {ts : List Turn} (h : s.turns = .txFree v :: ts) :
    s.nextInstr = none := by simp [State.nextInstr, h]

/-- Which command comes next does not depend on the schedule. -/
theorem nextCommand_turns (s : State) (ts : List Turn) :
    ({ s with turns := ts } : State).nextCommand = s.nextCommand := by
  unfold State.nextCommand State.takeCommand
  cases s.held <;> cases s.cmds <;> rfl

theorem QuietStep.of_same {u : State} (h : SameBlock s t) (h' : QuietStep t u) : QuietStep s u where
  cfg := h'.cfg.trans h.cfg
  mem := h'.mem.trans h.mem
  head := h'.head.trans h.head
  tail := h'.tail.trans h.tail
  count := h'.count.trans h.count
  eom := h'.eom.trans h.eom
  frmEn := h'.frmEn.trans h.frmEn
  msgs := h'.msgs.trans h.msgs
  active := h'.active.trans h.active
  rxRdy := h.rxRdy ▸ h.active ▸ h'.rxRdy
  rsp := h'.rsp
  dat := h'.dat
  rxRd := h'.rxRd
  ldCfg := h'.ldCfg
  tx := h'.tx
  pushFail := h'.pushFail

/-- WHAT A STEP CAN DO: it runs the next operation on the state as fetched, or it is quiet. -/
theorem step_cases (s : State) :
    (∃ i s0, s.nextInstr = some i ∧ SameBlock s s0 ∧ step s = exec i s0) ∨
      (s.nextInstr = none ∧ ∃ t, step s = .next t ∧ QuietStep s t) := by
  cases ht : s.turns with
  | nil =>
    rw [step_nil ht, nextInstr_nil ht, unscheduledTurn]
    split
    · rcases producerTurn_cases s with ⟨h1, h2⟩ | ⟨h1, h2⟩
      · exact .inl ⟨_, s, h1, .refl s, h2⟩
      · exact .inr ⟨h1, _, h2, quiet_emit (.refl s)⟩
    · exact consumerTurn_cases s
  | cons turn ts =>
    have hs := SameBlock.turns s ts
    cases turn with
    | consumer =>
      rw [step_consumer ht, nextInstr_consumer ht, ← nextCommand_turns s ts]
      rcases consumerTurn_cases { s with turns := ts } with ⟨i, s0, h1, h2, h3⟩ | ⟨h1, t, h2, h3⟩
      · exact .inl ⟨i, s0, h1, hs.trans h2, h3⟩
      · exact .inr ⟨h1, t, h2, h3.of_same hs⟩
    | producer =>
      rw [step_producer ht, nextInstr_producer ht]
      rcases producerTurn_cases { s with turns := ts } with ⟨h1, h2⟩ | ⟨h1, h2⟩
      · exact .inl ⟨_, _, h1, hs, h2⟩
      · exact .inr ⟨h1, _, h2, quiet_emit hs⟩
    | arrive b =>
      rw [step_arrive ht, nextInstr_arrive ht]
      exact .inr ⟨rfl, _, rfl, quiet_arrive b hs⟩
    | txFree v =>
      rw [step_txFree ht, nextInstr_txFree ht]
      exact .inr ⟨rfl, _, rfl, quiet_lineTxFree v hs⟩

/-- No command word decodes to RXEVT: the consumer cannot push (60_exceptions.md R202). -/
theorem decodeCmd_ne_rxevt (w : Word24) : decodeCmd w ≠ .ok .rxevt := by
  unfold decodeCmd; split <;> simp

theorem nextCommand_ne_rxevt (s : State) : s.nextCommand ≠ some .rxevt := by
  unfold State.nextCommand
  split
  · simp
  · rename_i w s1 h
    have := decodeCmd_ne_rxevt w
    rw [decode]
    split <;> simp_all

/-- A step that runs RXEVT finds a waiting byte. -/
theorem rxRdy_of_nextInstr (h : s.nextInstr = some .rxevt) : s.rxRdy = true := by
  have hc := nextCommand_ne_rxevt s
  have he : s.nextEvent = some .rxevt → s.rxRdy = true := by
    rw [nextEvent_eq]; cases s.rxRdy <;> simp
  unfold State.nextInstr at h
  split at h
  · split at h
    · exact he h
    · exact absurd h hc
  · exact absurd h hc
  · exact he h
  · cases h
  · cases h

/-! ### What the meanings that touch the ring can do -/

/-- All that POP1 can do. -/
theorem execPop1_cases (h : execPop1 s = .next t) :
    (s.active = false ∧ t = s.respond .notactive 0#16 []) ∨
      (s.active = true ∧ s.count = 0 ∧ t = s.respond .nodata 0#16 []) ∨
      ∃ b, s.active = true ∧ s.count ≠ 0 ∧ readSlot s s.head = .ok b ∧
        t = ({ s with head := incMod s.cfg.capacity s.head, count := s.count - 1 } : State).respond
          .ok (b.setWidth 16) [] := by
  unfold execPop1 at h
  split at h
  · rename_i ha
    unfold outcomeOf at h
    cases hp : rbPopOne s with
    | error f => simp [hp] at h
    | ok r =>
      rcases rbPopOne_cases hp with ⟨rfl, h0⟩ | ⟨b, hb, h0, rfl⟩
      · simp [hp] at h; exact .inr (.inl ⟨ha, h0, by simp [h]⟩)
      · simp [hp] at h; exact .inr (.inr ⟨b, ha, h0, hb, by simp [h]⟩)
  · rename_i ha
    cases h; exact .inl ⟨by simpa using ha, rfl⟩

/-- All that GET can do. -/
theorem execGet_cases {n : Nat} (h : execGet n s = .next t) :
    (s.active = false ∧ t = s.respond .notactive 0#16 []) ∨
      ∃ d, s.active = true ∧ readRun s 0 (min n s.count) = .ok d ∧
        t = (s.dropOldest (min n s.count)).respond .ok (BitVec.ofNat 16 (min n s.count)) d := by
  unfold execGet at h
  split at h
  · rename_i ha
    unfold outcomeOf at h
    cases hp : rbPopUpTo n s with
    | error f => simp [hp] at h
    | ok r =>
      obtain ⟨d, hd, rfl⟩ := rbPopUpTo_cases hp
      simp [hp] at h
      exact .inr ⟨d, ha, hd, by simp [h]⟩
  · rename_i ha
    cases h; exact .inl ⟨by simpa using ha, rfl⟩

/-- All that GETMSG can do. -/
theorem execGetmsg_cases {n : Nat} (h : execGetmsg n s = .next t) :
    (s.active = false ∧ t = s.respond .notactive 0#16 []) ∨
      (∃ p d, s.active = true ∧ scanTerm s s.eom 0 (min n s.count) = .ok (some p) ∧
        readRun s 0 (p + 1) = .ok d ∧
        t = (s.dropOldest (p + 1)).fsConsume.respond .ok (BitVec.ofNat 16 d.length) d) ∨
      (∃ p, s.active = true ∧ s.cfg.oversize = .drop ∧
        scanTerm s s.eom 0 (min n s.count) = .ok none ∧
        scanTerm s s.eom (min n s.count) (s.count - min n s.count) = .ok (some p) ∧
        t = (s.dropOldest (p + 1)).fsConsume.respond .nomsg 0#16 []) ∨
      (s.active = true ∧ scanTerm s s.eom 0 (min n s.count) = .ok none ∧
        t = s.respond .nomsg 0#16 []) := by
  unfold execGetmsg at h
  split at h
  · rename_i ha
    unfold outcomeOf at h
    cases hp : rbPopUntilTerm s.eom n s with
    | error f => simp [hp] at h
    | ok r =>
      rcases rbPopUntilTerm_cases hp with ⟨p, d, h1, h2, rfl⟩ | ⟨p, h1, h2, h3, rfl⟩ | ⟨h1, rfl⟩
      · simp [hp] at h; exact .inr (.inl ⟨p, d, ha, h1, h2, by simp [h]⟩)
      · simp [hp] at h; exact .inr (.inr (.inl ⟨p, ha, h1, h2, h3, by simp [h]⟩))
      · simp [hp] at h; exact .inr (.inr (.inr ⟨ha, h1, by simp [h]⟩))
  · rename_i ha
    cases h; exact .inl ⟨by simpa using ha, rfl⟩

/-- All that RXEVT can do. -/
theorem execRxevt_cases (h : execRxevt s = .next t) :
    (s.evtReq = false ∧ t = s.emit {}) ∨
      (s.evtReq = true ∧ s.count = s.cfg.capacity ∧
        t = s.readRx.emit { rxRd := true, pushFail := true }) ∨
      (s.evtReq = true ∧ s.count ≠ s.cfg.capacity ∧ s.tail < s.cfg.capacity ∧
        t = ((s.readRx.pushed s.rxByte).fsNoteByte s.rxByte).emit { rxRd := true }) := by
  unfold execRxevt at h
  split at h
  · rename_i ha
    unfold outcomeOf serviceReceiveEvent at h
    cases hp : rbPush s.rxByte s.readRx with
    | error f => simp [hp] at h
    | ok r =>
      rcases rbPush_cases hp with ⟨rfl, h1⟩ | ⟨rfl, h1, h2⟩
      · simp [hp] at h; exact .inr (.inl ⟨ha, h1, h.symm⟩)
      · simp [hp] at h; exact .inr (.inr ⟨ha, h1, h2, h.symm⟩)
  · rename_i ha
    cases h; exact .inl ⟨by simpa using ha, rfl⟩

/-! ### What no operation touches, and the schedule -/

/-- No operation touches what belongs to the instance, to the environment or to the schedule. -/
theorem exec_outside {i : Instr} (h : exec i s = .next t) :
    t.cfg = s.cfg ∧ t.turns = s.turns ∧ t.cmds = s.cmds ∧ t.txFree = s.txFree ∧
      t.draws = s.draws ∧ t.rxByte = s.rxByte := by
  have all : ∀ {u : State}, u.cfg = s.cfg → u.turns = s.turns → u.cmds = s.cmds →
      u.txFree = s.txFree → u.draws = s.draws → u.rxByte = s.rxByte →
      u.cfg = s.cfg ∧ u.turns = s.turns ∧ u.cmds = s.cmds ∧ u.txFree = s.txFree ∧
        u.draws = s.draws ∧ u.rxByte = s.rxByte :=
    fun a b c d e f => ⟨a, b, c, d, e, f⟩
  cases i with
  | resume => cases h; exact all rfl rfl rfl rfl rfl rfl
  | suspend => cases h; exact all rfl rfl rfl rfl rfl rfl
  | clear => cases h; exact all rfl rfl rfl rfl rfl rfl
  | pop1 =>
    rcases execPop1_cases h with ⟨_, rfl⟩ | ⟨_, _, rfl⟩ | ⟨_, _, _, _, rfl⟩ <;>
      exact all rfl rfl rfl rfl rfl rfl
  | get n =>
    rcases execGet_cases h with ⟨_, rfl⟩ | ⟨_, _, _, rfl⟩ <;> exact all rfl rfl rfl rfl rfl rfl
  | getmsg n =>
    rcases execGetmsg_cases h with
      ⟨_, rfl⟩ | ⟨_, _, _, _, _, rfl⟩ | ⟨_, _, _, _, _, rfl⟩ | ⟨_, _, rfl⟩ <;>
      exact all rfl rfl rfl rfl rfl rfl
  | put b =>
    simp only [exec, execPut] at h
    split at h <;> [split at h; skip] <;> cases h <;> exact all rfl rfl rfl rfl rfl rfl
  | get1 f =>
    simp only [exec, execGet1] at h
    split at h <;> [(split at h <;> [skip; split at h]); skip] <;> cases h <;>
      exact all rfl rfl rfl rfl rfl rfl
  | seteom b =>
    simp only [exec, execSeteom] at h
    split at h <;> cases h <;> exact all rfl rfl rfl rfl rfl rfl
  | setfrm f =>
    simp only [exec, execSetfrm] at h
    split at h <;> cases h <;> exact all rfl rfl rfl rfl rfl rfl
  | rdreg r =>
    simp only [exec, execRdreg] at h
    split at h <;> cases h <;> exact all rfl rfl rfl rfl rfl rfl
  | rxevt =>
    rcases execRxevt_cases h with ⟨_, rfl⟩ | ⟨_, _, rfl⟩ | ⟨_, _, _, rfl⟩
    · exact all rfl rfl rfl rfl rfl rfl
    · exact all rfl rfl rfl rfl rfl rfl
    · simp [State.pushed]

/-- A turn of the consumer leaves the schedule. -/
theorem consumerTurn_turns (h : consumerTurn s = .next t) : t.turns = s.turns := by
  unfold consumerTurn at h
  cases ht : s.takeCommand with
  | none => rw [ht] at h; cases h; rfl
  | some p =>
    obtain ⟨w, s0⟩ := p
    have hs : s0.turns = s.turns := by
      unfold State.takeCommand at ht
      split at ht
      · cases ht; rfl
      · split at ht <;> cases ht; rfl
    cases hd : decode (.cmd w) with
    | ok i => simp only [ht, hd] at h; exact (exec_outside h).2.1.trans hs
    | error e => simp only [ht, hd] at h; cases h; exact hs

/-- A turn of the producer leaves the schedule. -/
theorem producerTurn_turns (h : producerTurn s = .next t) : t.turns = s.turns := by
  rcases producerTurn_cases s with ⟨_, h2⟩ | ⟨_, h2⟩
  · rw [h2] at h; exact (exec_outside h).2.1
  · rw [h2] at h; cases h; rfl

/-- Each step uses up the first turn of the schedule, if there is one. -/
theorem step_turns (h : step s = .next t) : t.turns = s.turns.tail := by
  cases ht : s.turns with
  | nil =>
    rw [step_nil ht, unscheduledTurn] at h
    split at h
    · exact (producerTurn_turns h).trans ht
    · exact (consumerTurn_turns h).trans ht
  | cons u ts =>
    cases u with
    | consumer => rw [step_consumer ht] at h; exact consumerTurn_turns h
    | producer => rw [step_producer ht] at h; exact producerTurn_turns h
    | arrive b => rw [step_arrive ht] at h; cases h; simp
    | txFree v => rw [step_txFree ht] at h; cases h; rfl

end

end Sys2Proof.Machine
end

