-- ==== Sys2Proof/Laws/Run.lean ====
section
/-! SUPPORT. Runs, one step at a time. -/

namespace Sys2Proof.Machine

section
variable {s t : State}

@[simp] theorem runFor_zero (s : State) : runFor 0 s = .next s := rfl

theorem runFor_succ (n : Nat) (s : State) :
    runFor (n + 1) s =
      match step s with
      | .next t => runFor n t
      | .fault f => .fault f
      | .refused r => .refused r := by
  simp only [runFor, Host.Core.run]
  cases h : step s <;> simp [Sys2Proof.core, h]

theorem runFor_of_next (n : Nat) (h : step s = .next t) : runFor (n + 1) s = runFor n t := by
  rw [runFor_succ, h]

theorem runFor_of_fault (n : Nat) {f : Fault} (h : step s = .fault f) :
    runFor (n + 1) s = .fault f := by
  rw [runFor_succ, h]

theorem runFor_of_refused (n : Nat) {r : Refusal} (h : step s = .refused r) :
    runFor (n + 1) s = .refused r := by
  rw [runFor_succ, h]

/-- A property every step keeps holds at the end of every run that does not stop. -/
theorem runFor_keeps {P : State → Prop} (hstep : ∀ u v, P u → step u = .next v → P v) :
    ∀ (n : Nat) {s t : State}, P s → runFor n s = .next t → P t
  | 0, s, t, hs, h => by cases h; exact hs
  | n + 1, s, t, hs, h => by
    cases hu : step s with
    | next u => exact runFor_keeps hstep n (hstep s u hs hu) (runFor_of_next n hu ▸ h)
    | fault f => rw [runFor_of_fault n hu] at h; cases h
    | refused r => rw [runFor_of_refused n hu] at h; cases h

end

end Sys2Proof.Machine
end

