-- ==== Sys2Proof/Laws/Words.lean ====
section
/-! SUPPORT. The fields of the words the block takes and answers (30_encoding.md R76, R79): a field
of a word put together from fields is that field, and a word as a number. -/

namespace Sys2Proof.Machine

/-- A word of an 8-bit and a 16-bit field, as a number. -/
theorem word24_toNat (o : BitVec 8) (a : Word16) :
    BitVec.toNat (w := 24) (o ++ a) = o.toNat * 65536 + a.toNat := by
  have h : BitVec.toNat (w := 24) (o ++ a) = o.toNat <<< 16 ||| a.toNat :=
    BitVec.toNat_append (x := o) (y := a)
  rw [h, ← Nat.shiftLeft_add_eq_or_of_lt a.isLt, Nat.shiftLeft_eq]

/-- `OPC` of a command word, as a number. -/
theorem cmdOpc_toNat (w : Word24) : (cmdOpc w).toNat = w.toNat / 65536 := by
  have := w.isLt
  simp only [cmdOpc, BitVec.extractLsb'_toNat, Nat.shiftRight_eq_div_pow]
  omega

/-- `ARG` of a command word, as a number. -/
theorem cmdArg_toNat (w : Word24) : (cmdArg w).toNat = w.toNat % 65536 := by
  simp [cmdArg, BitVec.extractLsb'_toNat]

@[simp] theorem cmdOpc_append (o : BitVec 8) (a : Word16) : cmdOpc (o ++ a) = o := by
  apply BitVec.eq_of_toNat_eq
  have := a.isLt
  rw [cmdOpc_toNat, word24_toNat]
  omega

@[simp] theorem cmdArg_append (o : BitVec 8) (a : Word16) : cmdArg (o ++ a) = a := by
  apply BitVec.eq_of_toNat_eq
  have := a.isLt
  rw [cmdArg_toNat, word24_toNat]
  omega

theorem rspStatus_eq_cmdOpc (w : Word24) : rspStatus w = cmdOpc w := rfl

theorem rspVal_eq_cmdArg (w : Word24) : rspVal w = cmdArg w := rfl

@[simp] theorem rspStatus_rspWord (st : Status) (v : Word16) :
    rspStatus (rspWord st v) = statusCode st := cmdOpc_append _ _

@[simp] theorem rspVal_rspWord (st : Status) (v : Word16) : rspVal (rspWord st v) = v :=
  cmdArg_append _ _

/-- `zext_16` of a byte. -/
theorem setWidth_byte (b : Byte) : b.setWidth 16 = (0x00#8 ++ b : Word16) := by
  apply BitVec.eq_of_toNat_eq
  have h : BitVec.toNat (w := 16) (0x00#8 ++ b) = (0x00#8).toNat <<< 8 ||| b.toNat :=
    BitVec.toNat_append (x := 0x00#8) (y := b)
  have := b.isLt
  rw [h, BitVec.toNat_setWidth]
  simp
  omega

end Sys2Proof.Machine
end

