-- ==== Sys2Proof/Machine/Assembler.lean ====
section
/-! DEFINITION. The text forms of 30_encoding.md R86 and the pseudo-operations of R87. -/

namespace Sys2Proof.Machine

/-- The three pseudo-operations that stand for a command (R87). -/
inductive Pseudo where
  /-- `PENDING`, the source's `pending_messages`. -/
  | pending
  /-- `LEVEL`, the current `count`. -/
  | level
  /-- `STAT`, the status register. -/
  | stat
deriving DecidableEq, Repr

/-- The command a pseudo-operation expands to (R87). -/
def expandPseudo : Pseudo → Instr
  | .pending => .rdreg 2
  | .level => .rdreg 1
  | .stat => .rdreg 0

/-- `RX <b>`: `ARRIVE <b>` at once followed by `RXEVT`, two steps (R86, R87). -/
def rxTurns (b : Byte) : List Turn := [.arrive b, .producer]

/-- `RX "text"`: one `RX` per character (R86). -/
def rxText (bs : List Byte) : List Turn := bs.flatMap rxTurns

/-- The mnemonic of an operation (R78, R82). -/
def mnemonic : Instr → String
  | .resume => "RESUME"
  | .suspend => "SUSPEND"
  | .clear => "CLEAR"
  | .pop1 => "POP1"
  | .get _ => "GET"
  | .getmsg _ => "GETMSG"
  | .put _ => "PUT"
  | .get1 _ => "GET1"
  | .seteom _ => "SETEOM"
  | .setfrm _ => "SETFRM"
  | .rdreg _ => "RDREG"
  | .rxevt => "RXEVT"

/-- The operand of an operation as a number, if it has one (R86). -/
def operandNumber : Instr → Option Nat
  | .resume => none
  | .suspend => none
  | .clear => none
  | .pop1 => none
  | .get n => some n
  | .getmsg n => some n
  | .put b => some b.toNat
  | .get1 f => some f.toNat
  | .seteom b => some b.toNat
  | .setfrm f => some f.toNat
  | .rdreg r => some r
  | .rxevt => none

/-- An operation as text: its mnemonic followed by at most one operand (R86), the number written in
decimal (DESIGN CHOICE, log 19). -/
def asmText (i : Instr) : String :=
  match operandNumber i with
  | none => mnemonic i
  | some n => mnemonic i ++ " " ++ toString n

/-- A step of the environment or of the producer as text (R86); the level of `tx_free` has no text
form. -/
def traceText : Turn → Option String
  | .arrive b => some ("ARRIVE " ++ toString b.toNat)
  | .producer => some "RXEVT"
  | .consumer => none
  | .txFree _ => none

/-- The name of a status (R80). -/
def statusName : Status → String
  | .ok => "OK"
  | .nodata => "NODATA"
  | .nomsg => "NOMSG"
  | .notactive => "NOTACTIVE"
  | .notsusp => "NOTSUSP"
  | .illegal => "ILLEGAL"

/-- The bytes of the data stream as text, `[b0 b1 ...]`; nothing where there are none (R86). -/
def dataText : List Byte → String
  | [] => ""
  | b :: bs => " [" ++ bs.foldl (fun t c => t ++ " " ++ toString c.toNat) (toString b.toNat) ++ "]"

/-- A response as text, `-> STATUS VAL [b0 b1 ...]` (R86). -/
def rspText (st : Status) (val : Word16) (data : List Byte) : String :=
  "-> " ++ statusName st ++ " " ++ toString val.toNat ++ dataText data

/-! ### Reading text -/

/-- A piece of a line: a word, a character in single quotes, or a text in double quotes. -/
inductive Token where
  | word (cs : List Char)
  | chr (c : Char)
  | text (cs : List Char)
deriving DecidableEq, Repr

/-- The word read so far (newest character first), as a token if there is one. -/
def flushWord (cur : List Char) (ts : List Token) : List Token :=
  match cur with
  | [] => ts
  | c :: cs => .word (c :: cs).reverse :: ts

/-- The character an escape stands for (00_scope.md R14 writes the line feed so; 95_test_vectors.md
the carriage return). -/
def escaped : Char → Option Char
  | 'n' => some '\n'
  | 'r' => some '\r'
  | _ => none

/-- Cut a line into tokens, up to its comment. `quoted` holds the text read so far inside double
quotes, newest character first; `cur` the word read so far. None where a quote does not close. -/
def tokenize : (quoted : Option (List Char)) → (cur : List Char) → List Char →
    Option (List Token)
  | none, cur, [] => some (flushWord cur [])
  | some _, _, [] => none
  | some q, cur, '\\' :: e :: r =>
    match escaped e with
    | none => none
    | some c => tokenize (some (c :: q)) cur r
  | some q, cur, '"' :: r => (tokenize none cur r).map (.text q.reverse :: ·)
  | some q, cur, c :: r => tokenize (some (c :: q)) cur r
  | none, cur, ';' :: _ => some (flushWord cur [])
  | none, cur, ' ' :: r => (tokenize none [] r).map (flushWord cur)
  | none, cur, '\'' :: '\\' :: e :: '\'' :: r =>
    match escaped e with
    | none => none
    | some c => (tokenize none [] r).map fun ts => flushWord cur (.chr c :: ts)
  | none, cur, '\'' :: c :: '\'' :: r =>
    (tokenize none [] r).map fun ts => flushWord cur (.chr c :: ts)
  | none, cur, '"' :: r => (tokenize (some []) [] r).map (flushWord cur)
  | none, cur, c :: r => tokenize none (c :: cur) r

/-- The value of a digit in base `base`. -/
def digitValue (base : Nat) (c : Char) : Option Nat :=
  let v := if '0' ≤ c ∧ c ≤ '9' then some (c.toNat - 48)
    else if 'a' ≤ c ∧ c ≤ 'f' then some (c.toNat - 87)
    else if 'A' ≤ c ∧ c ≤ 'F' then some (c.toNat - 55)
    else none
  v.bind fun d => if d < base then some d else none

/-- Digits after a value already read. -/
def digitsFrom (base : Nat) : (acc : Nat) → List Char → Option Nat
  | acc, [] => some acc
  | acc, c :: r => (digitValue base c).bind fun d => digitsFrom base (acc * base + d) r

/-- A decimal or `0x` hexadecimal number (R86). -/
def parseNumber : List Char → Option Nat
  | [] => none
  | '0' :: 'x' :: c :: r => digitsFrom 16 0 (c :: r)
  | c :: r => digitsFrom 10 0 (c :: r)

/-- A character as the byte of its ASCII value (00_scope.md R14). -/
def charByte (c : Char) : Option Byte :=
  if c.toNat < 128 then some (BitVec.ofNat 8 c.toNat) else none

/-- `<n>` and `<r>`: a number 0 to 65535 (R86). -/
def parseN16 : Token → Option Nat
  | .word cs => (parseNumber cs).bind fun n => if fitsArg n then some n else none
  | .chr _ => none
  | .text _ => none

/-- `<b>`: a number 0 to 255 or a character in single quotes (R86). -/
def parseB8 : Token → Option Byte
  | .word cs => (parseNumber cs).bind fun n => if n < 256 then some (BitVec.ofNat 8 n) else none
  | .chr c => charByte c
  | .text _ => none

/-- `<f>`: 0 or 1 (R86). -/
def parseF1 : Token → Option Bool
  | .word ['0'] => some false
  | .word ['1'] => some true
  | _ => none

/-- What a line says: a command, steps of the producer's side, or nothing. -/
inductive Line where
  | blank
  | command (i : Instr)
  | trace (ts : List Turn)
deriving DecidableEq, Repr

/-- A mnemonic or a pseudo-operation with no operand (R86, R87). -/
def parseBare (m : String) : Option Line :=
  match m with
  | "RESUME" => some (.command .resume)
  | "SUSPEND" => some (.command .suspend)
  | "CLEAR" => some (.command .clear)
  | "POP1" => some (.command .pop1)
  | "PENDING" => some (.command (expandPseudo .pending))
  | "LEVEL" => some (.command (expandPseudo .level))
  | "STAT" => some (.command (expandPseudo .stat))
  | "RXEVT" => some (.trace [.producer])
  | _ => none

/-- A mnemonic with one operand (R86, R87). -/
def parseWith (m : String) (t : Token) : Option Line :=
  match m with
  | "GET" => (parseN16 t).map (.command <| .get ·)
  | "GETMSG" => (parseN16 t).map (.command <| .getmsg ·)
  | "RDREG" => (parseN16 t).map (.command <| .rdreg ·)
  | "PUT" => (parseB8 t).map (.command <| .put ·)
  | "SETEOM" => (parseB8 t).map (.command <| .seteom ·)
  | "GET1" => (parseF1 t).map (.command <| .get1 ·)
  | "SETFRM" => (parseF1 t).map (.command <| .setfrm ·)
  | "ARRIVE" => (parseB8 t).map fun b => .trace [.arrive b]
  | "RX" =>
    match t with
    | .text cs => (cs.mapM charByte).map fun bs => .trace (rxText bs)
    | .word cs => (parseB8 (.word cs)).map fun b => .trace (rxTurns b)
    | .chr c => (parseB8 (.chr c)).map fun b => .trace (rxTurns b)
  | _ => none

/-- One line of text (R86, R87): a mnemonic, at most one operand, and a comment after `;`. None for
any other line. -/
def parseLine (line : List Char) : Option Line :=
  match tokenize none [] line with
  | some [] => some .blank
  | some [.word m] => parseBare (String.ofList m)
  | some [.word m, t] => parseWith (String.ofList m) t
  | _ => none

end Sys2Proof.Machine
end

