-- ==== Sys2Proof/Tests/Slice0.lean ====
section
/-! SUPPORT. The model's own tests: refused ill-formed terms, words written out from the encoding,
one step per test with the result the spec's vectors give, and a concrete state for the hypotheses
of every statement that has some (theorems `witness_...`). -/

namespace Sys2Proof.Tests

open Sys2Proof.Machine

/-! ### Ill-formed operations are refused -/

theorem test_wf_get_too_big : (Instr.get 65536).wf = false := by decide
theorem test_wf_getmsg_too_big : (Instr.getmsg 65536).wf = false := by decide
theorem test_wf_rdreg_too_big : (Instr.rdreg 65536).wf = false := by decide

/-! ### Decoding: one word per operation, bit by bit from 30_encoding.md R76 to R78 and R82 -/

theorem test_decode_resume : decodeTableWord 24 0b000000010000000000000000 = some .resume := by
  decide
theorem test_decode_suspend : decodeTableWord 24 0b000000100000000000000000 = some .suspend := by
  decide
theorem test_decode_clear : decodeTableWord 24 0b000000110000000000000000 = some .clear := by
  decide
theorem test_decode_pop1 : decodeTableWord 24 0b000001000000000000000000 = some .pop1 := by decide
theorem test_decode_get : decodeTableWord 24 0b000001011000000000000010 = some (.get 32770) := by
  decide
theorem test_decode_getmsg : decodeTableWord 24 0b000001100000000000010000 = some (.getmsg 16) := by
  decide
theorem test_decode_put : decodeTableWord 24 0b000001110000000001000001 = some (.put 0x41#8) := by
  decide
theorem test_decode_get1 : decodeTableWord 24 0b000010000000000000000001 = some (.get1 true) := by
  decide
theorem test_decode_seteom :
    decodeTableWord 24 0b000010010000000000001101 = some (.seteom 0x0D#8) := by decide
theorem test_decode_setfrm : decodeTableWord 24 0b000010100000000000000001 = some (.setfrm true) := by
  decide
theorem test_decode_rdreg : decodeTableWord 24 0b000010110000000000000100 = some (.rdreg 4) := by
  decide
theorem test_decode_rxevt : decodeTableWord 16 0b101101000 = some .rxevt := by decide

/-- R84's own examples. -/
theorem test_decode_ignored_bits :
    decodeTableWord 24 0x07FF41 = some (.put 0x41#8) ∧ decodeTableWord 24 0x01BEEF = some .resume ∧
    decodeTableWord 24 0x0AFFFE = some (.setfrm false) := by decide

/-- R83: the edges of the reserved codes; R82: nothing pending. -/
theorem test_decode_rejected :
    decodeTableWord 24 0x000000 = none ∧ decodeTableWord 24 0x0C0000 = none ∧
    decodeTableWord 24 0xFFFFFF = none ∧ decodeTableWord 16 0x068 = none := by decide

/-- The encodings of 95_test_vectors.md. -/
theorem test_encode :
    encode (.getmsg 16) = .cmd 0x060010#24 ∧ encode (.seteom 0x0D#8) = .cmd 0x09000D#24 ∧
    encode (.setfrm true) = .cmd 0x0A0001#24 := by decide

/-- R191: a pair that is not in the table is not built, nor is a capacity out of range. -/
theorem test_build_refuses :
    Config.build 8 [⟨1, 1⟩] ⟨2, 1⟩ = none ∧ Config.build 0 [⟨1, 1⟩] ⟨1, 1⟩ = none ∧
    Config.build 65536 [⟨1, 1⟩] ⟨1, 1⟩ = none ∧
    (Config.build 65535 [⟨1, 1⟩] ⟨1, 1⟩).isSome = true := by decide

/-! ### States and results -/

/-- A configuration of `c` slots under a policy, else the defaults. -/
def cfgOf (c : Nat) (p : OversizePolicy) (h : 0 < c ∧ c ≤ 65535 := by decide) : Config :=
  { Config.standard with capacity := c, capacity_pos := h.1, capacity_le := h.2, oversize := p }

/-- An Active channel with the given ring and counter. -/
def ring (cfg : Config) (mem : Memory) (head tail count msgs : Nat) : State :=
  { State.resetWith cfg with
    active := true, mem := mem, head := head, tail := tail, count := count, msgs := msgs }

def ringKeep (c : Nat) (mem : Memory) (head tail count msgs : Nat)
    (h : 0 < c ∧ c ≤ 65535 := by decide) : State :=
  ring (cfgOf c .keep h) mem head tail count msgs

/-- `[61 62 0A 63]` in four slots. -/
def fullMsg : Memory := [(0, 0x61#8), (1, 0x62#8), (2, 0x0A#8), (3, 0x63#8)]

/-- `[61 62 63 64]` in four slots. -/
def fullPlain : Memory := [(0, 0x61#8), (1, 0x62#8), (2, 0x63#8), (3, 0x64#8)]

/-- A byte waits in the receive register. -/
def pending (b : Byte) (s : State) : State := { s with rxRdy := true, rxByte := b }

def after : Host.Outcome State Fault Refusal → Option State
  | .next t => some t
  | .fault _ => none
  | .refused _ => none

/-- Response word, data, and `head`, `tail`, `count`, `msgs` after an outcome. -/
def seen (r : Host.Outcome State Fault Refusal) :
    Option (Option Word24 × List Byte × Nat × Nat × Nat × Nat) :=
  (after r).map fun t => (t.out.rsp, t.out.dat, t.head, t.tail, t.count, t.msgs)

/-! ### One step per test -/

/-- R155: a buffered message and a pending byte go. -/
theorem test_resume_discards :
    (after (exec .resume (pending 0x7A#8 (ringKeep 4 fullMsg 2 2 4 1)))).map
      (fun t => (t.active, t.rxRdy, t.head, t.count, t.msgs)) = some (true, false, 0, 0, 0) := by
  decide

/-- R156: `eom` survives. -/
theorem test_suspend_keeps_eom :
    (after (exec .suspend { ringKeep 4 fullMsg 2 2 4 1 with eom := 0x0D#8 })).map
      (fun t => (t.active, t.count, t.msgs, t.eom)) = some (false, 0, 0, 0x0D#8) := by
  decide

/-- 95_test_vectors.md E4, its CLEAR. -/
theorem test_clear_keeps_pending_byte :
    (after (exec .clear (pending 0x7A#8 (ringKeep 8 [(0, 0x61#8)] 0 1 1 0)))).map
      (fun t => (t.rxRdy, t.rxByte, t.count, t.active)) = some (true, 0x7A#8, 0, true) := by
  decide

/-- R101's example. -/
theorem test_pop1_wraps_head :
    seen (exec .pop1 (ringKeep 4 [(0, 0x79#8), (3, 0x78#8)] 3 1 2 0)) =
      some (some 0x000078#24, [], 0, 1, 1, 0) := by decide

/-- V2. -/
theorem test_pop1_empty : seen (exec .pop1 (ringKeep 8 [] 3 3 0 0)) =
    some (some 0x010000#24, [], 3, 3, 0, 0) := by decide

/-- R102's example. -/
theorem test_get_across_wrap :
    seen (exec (.get 2) (ringKeep 4 [(0, 0x63#8), (2, 0x61#8), (3, 0x62#8)] 2 1 3 0)) =
      some (some 0x000002#24, [0x61#8, 0x62#8], 0, 1, 1, 0) := by decide

/-- V5: `head` comes round to where it was. -/
theorem test_get_drains_full_ring :
    seen (exec (.get 4) (ringKeep 4
      [(0, 0x63#8), (1, 0x64#8), (2, 0x61#8), (3, 0x62#8)] 2 2 4 0)) =
      some (some 0x000004#24, [0x61#8, 0x62#8, 0x63#8, 0x64#8], 2, 2, 0, 0) := by decide

/-- V11. -/
theorem test_getmsg_across_wrap :
    seen (exec (.getmsg 4) (ringKeep 4 [(0, 0x62#8), (1, 0x0A#8), (3, 0x61#8)] 3 2 3 1)) =
      some (some 0x000003#24, [0x61#8, 0x62#8, 0x0A#8], 2, 2, 0, 0) := by decide

/-- R104's example, with the terminator counted. -/
theorem test_getmsg_drops_oversized :
    seen (exec (.getmsg 3) (ring (cfgOf 8 .drop) [(0, 0x61#8), (1, 0x62#8), (2, 0x63#8),
      (3, 0x64#8), (4, 0x0A#8), (5, 0x78#8)] 0 6 6 1)) =
      some (some 0x020000#24, [], 5, 6, 1, 0) := by decide

/-- R160's example. -/
theorem test_put_writes :
    (after (exec (.put 0x41#8) { ringKeep 8 [] 0 0 0 0 with txFree := true })).map (·.out) =
      some { rsp := some 0x000000#24, tx := some 0x41#8 } := by decide

/-- R88: a waiting PUT keeps the port and answers nothing. -/
theorem test_put_waits :
    (after (exec (.put 0x41#8) { ringKeep 8 [] 0 0 0 0 with held := some 0x070041#24 })).map
      (fun t => (t.held, t.out)) = some (some 0x070041#24, {}) := by decide

/-- R161's example. -/
theorem test_get1_takes_byte :
    (after (exec (.get1 false) (pending 0x7A#8 (ringKeep 8 [(0, 0x61#8)] 0 1 1 0)))).map
      (fun t => (t.out.rsp, t.rxRdy, t.count)) = some (some 0x00007A#24, false, 1) := by decide

/-- R161's example without a byte. -/
theorem test_get1_no_byte : seen (exec (.get1 false) (ringKeep 8 [] 0 0 0 0)) =
    some (some 0x010000#24, [], 0, 0, 0, 0) := by decide

/-- F2, its SETEOM. -/
theorem test_seteom_suspended :
    (after (exec (.seteom 0x0D#8) State.reset)).map (fun t => (t.eom, t.out.rsp)) =
      some (0x0D#8, some 0x000000#24) := by decide

/-- F4. -/
theorem test_seteom_active :
    (after (exec (.seteom 0x0D#8) (ringKeep 8 [] 0 0 0 0))).map (fun t => (t.eom, t.out.rsp)) =
      some (0x0A#8, some 0x040000#24) := by decide

/-- F1, its SETFRM. -/
theorem test_setfrm_suspended :
    (after (exec (.setfrm false) State.reset)).map (fun t => (t.frmEn, t.out.rsp)) =
      some (false, some 0x000000#24) := by decide

/-- P1 step 9: STATUS with a message pending. -/
theorem test_rdreg_status :
    (after (exec (.rdreg 0) (ringKeep 8 [(0, 0x0A#8)] 0 1 1 1))).map (·.out.rsp) =
      some (some 0x000019#24) := by decide

/-- R162's examples after reset: CAP, and a reserved number. -/
theorem test_rdreg_cap_and_reserved :
    (after (exec (.rdreg 4) State.reset)).map (·.out.rsp) = some (some 0x000008#24) ∧
    (after (exec (.rdreg 5) State.reset)).map (·.out.rsp) = some (some 0x050000#24) := by decide

/-- P4 step 10: the terminator fills the ring and is counted; only its slot is written. -/
theorem test_rxevt_stores_terminator :
    (after (exec .rxevt (pending 0x0A#8 (ringKeep 4
      [(0, 0x65#8), (1, 0x66#8), (2, 0x63#8), (3, 0x64#8)] 3 2 3 0)))).map
      (fun t => (t.mem, t.tail, t.count, t.msgs, t.rxRdy, t.out.pushFail)) =
      some ([(0, 0x65#8), (1, 0x66#8), (2, 0x0A#8), (3, 0x64#8)], 3, 4, 1, false, false) := by
  decide

/-- V10: a terminator lost to a full ring is not counted. -/
theorem test_rxevt_full_ring :
    (after (exec .rxevt (pending 0x0A#8 (ringKeep 4 fullPlain 0 0 4 0)))).map
      (fun t => (t.mem, t.tail, t.count, t.msgs, t.rxRdy, t.out.pushFail)) =
      some (fullPlain, 0, 4, 0, false, true) := by decide

/-! ### The step, from reset -/

/-- P1 step 1. -/
theorem test_step_resume :
    (after (step (State.reset.withFetchWord 24 0x010000))).map (fun t => (t.active, t.out)) =
      some (true, { rsp := some 0x000000#24, ldCfg := some Config.standard.ldSetting }) := by decide

/-- P1 step 2, its RXEVT. -/
theorem test_step_rxevt :
    (after (step (State.reset.withFetchWord 16 0x168))).map
      (fun t => (t.mem, t.tail, t.count, t.rxRdy)) = some ([(0, 0x68#8)], 1, 1, false) := by decide

/-- P7 step 8. -/
theorem test_step_illegal :
    (after (step (State.reset.withFetchWord 24 0x0C0000))).map (·.out.rsp) =
      some (some 0x050000#24) := by decide

/-- R86, R87. -/
theorem test_pseudo :
    expandPseudo .pending = .rdreg 2 ∧ expandPseudo .level = .rdreg 1 ∧
    expandPseudo .stat = .rdreg 0 ∧ rxText [0x61#8] = [.arrive 0x61#8, .producer] := by decide

theorem test_asm : asmText .resume = "RESUME" ∧ asmText (.get 2) = "GET 2" ∧
    rspText .ok 2#16 [0x0A#8, 0x0B#8] = "-> OK 2 [10 11]" := ⟨rfl, rfl, rfl⟩

/-- Lines of 95_test_vectors.md, with R86's forms of numbers, characters, texts and comments. -/
theorem test_parse :
    parseLine "GETMSG 65535 ; a comment".toList = some (.command (.getmsg 65535)) ∧
    parseLine "SETEOM 0x0D".toList = some (.command (.seteom 0x0D#8)) ∧
    parseLine "PUT 'A'".toList = some (.command (.put 0x41#8)) ∧
    parseLine "STAT".toList = some (.command (.rdreg 0)) ∧
    parseLine "RX \"a\\n\"".toList = some (.trace (rxText [0x61#8, 0x0A#8])) ∧
    parseLine "GET 65536".toList = none ∧ parseLine "GET1 2".toList = none := by decide

/-- R66 with P1's message in a buffer of eight bytes 0xFF. -/
theorem test_buffer :
    bufferAfter (List.replicate 8 0xFF#8) [0x61#8, 0x0A#8] =
      [0x61#8, 0x0A#8, 0xFF#8, 0xFF#8, 0xFF#8, 0xFF#8, 0xFF#8, 0xFF#8] := by decide

/-! ### Witnesses: concrete states that meet the hypotheses of the statements -/

/-- The parts of the invariant that `decide` can check on a concrete state. -/
theorem ringInv_of {s : State}
    (h : s.mem.wf ∧ s.mem.within s.cfg.capacity ∧ s.count ≤ s.cfg.capacity ∧
      s.head < s.cfg.capacity ∧ s.tail < s.cfg.capacity ∧
      s.tail = addMod s.cfg.capacity s.head s.count ∧
      (∀ i, i < s.count → (s.q i).isSome = true) ∧ s.msgs ≤ s.cfg.msgMax ∧
      (s.active = false → s.count = 0 ∧ s.msgs = 0 ∧ s.rxRdy = false)) : RingInv s :=
  ⟨h.1, h.2.1, h.2.2.1, h.2.2.2.1, h.2.2.2.2.1, h.2.2.2.2.2.1, h.2.2.2.2.2.2.1,
    h.2.2.2.2.2.2.2.1, h.2.2.2.2.2.2.2.2⟩

/-- Active, empty, with `head` past 0. -/
def sEmpty : State := ringKeep 8 [] 3 3 0 0
/-- Active, one byte, in the last slot. -/
def sOne : State := ringKeep 8 [(7, 0x61#8)] 7 0 1 0
/-- Active, full, `Q = [61 62 0A 63]`, one message. -/
def sMsg : State := ringKeep 4 fullMsg 0 0 4 1
/-- The same under DROP. -/
def sDrop : State := ring (cfgOf 4 .drop) fullMsg 0 0 4 1
/-- Active, full across the wrap, `Q = [63 64 61 62]`, no terminator. -/
def sPlain : State := ringKeep 4 fullPlain 2 2 4 0
/-- Active, one free slot, the counter at the top of its range. -/
def sTop : State :=
  { ring { cfgOf 2 .keep with msgWidth := 1 } [(0, 0x0A#8)] 0 1 1 1 with
    rxRdy := true, rxByte := 0x0A#8 }
/-- A PUT waits, and so does a byte. -/
def sPut : State := { pending 0x62#8 sOne with held := some 0x070041#24 }

theorem inv_reset : RingInv State.reset := ringInv_of (by decide)
theorem inv_empty : RingInv sEmpty := ringInv_of (by decide)
theorem inv_one : RingInv sOne := ringInv_of (by decide)
theorem inv_msg : RingInv sMsg := ringInv_of (by decide)
theorem inv_drop : RingInv sDrop := ringInv_of (by decide)
theorem inv_plain : RingInv sPlain := ringInv_of (by decide)
theorem inv_top : RingInv sTop := ringInv_of (by decide)
theorem inv_put : RingInv sPut := ringInv_of (by decide)
theorem inv_pending_one : RingInv (pending 0x62#8 sOne) := ringInv_of (by decide)
theorem inv_pending_plain : RingInv (pending 0x0A#8 sPlain) := ringInv_of (by decide)
theorem inv_pending_msg : RingInv (pending 0x0A#8 sMsg) := ringInv_of (by decide)

/-! Encoding -/

theorem witness_DecodeEncodeAgree :
    (Instr.get 0).wf ∧ (Instr.get 65535).wf ∧ (Instr.getmsg 65535).wf ∧ (Instr.rdreg 65535).wf ∧
    (Instr.put 0xFF#8).wf ∧ (Instr.get1 true).wf ∧ (Instr.seteom 0xFF#8).wf ∧
    (Instr.setfrm true).wf ∧ Instr.rxevt.wf ∧ Instr.resume.wf ∧ Instr.suspend.wf ∧
    Instr.clear.wf ∧ Instr.pop1.wf := by decide

theorem witness_ArgumentFormsOfEveryCommand : 0 ≤ 65535 ∧ 65535 ≤ 65535 := by decide

theorem witness_IgnoredBitsHaveNoEffect :
    decode (.cmd 0x07FF41#24) = .ok (.put 0x41#8) ∧
    0x070041#24 &&& usedBits (.put 0x41#8) = 0x07FF41#24 &&& usedBits (.put 0x41#8) :=
  ⟨rfl, by decide⟩

theorem witness_DecodingIsTotal :
    (0x010000#24).toNat / 65536 = 1 ∧ (0x0BFFFF#24).toNat / 65536 = 11 ∧
    (0x00FFFF#24).toNat / 65536 = 0 ∧ (0x0C0000#24).toNat / 65536 = 12 ∧
    256 ≤ (0x100#9).toNat ∧ 256 ≤ (0x1FF#9).toNat ∧ (0x0FF#9).toNat < 256 := by decide

/-! The step -/

/-- A word for each of the six clauses. -/
theorem witness_StepRunsDecodedInstruction :
    decode (.cmd 0x040000#24) = .ok .pop1 ∧
    (∃ s : State, s.turns = .consumer :: [] ∧ s.held = some 0x040000#24) ∧
    (∃ s : State, s.turns = .consumer :: [] ∧ s.held = none ∧ s.cmds = [0x040000#24]) ∧
    (∃ s : State, s.turns = .producer :: [] ∧ s.rxRdy = true) ∧
    (∃ s : State, s.turns = [] ∧ s.rxRdy = true ∧ s.active = true) ∧
    (∃ s : State, s.turns = [] ∧ s.rxRdy = false ∧ s.held = some 0x040000#24) ∧
    (∃ s : State, s.turns = [] ∧ s.rxRdy = true ∧ s.active = false ∧ s.held = none ∧
      s.cmds = [0x040000#24]) :=
  ⟨rfl, ⟨{ sOne with turns := [.consumer], held := some 0x040000#24 }, rfl, rfl⟩,
    ⟨{ sOne with turns := [.consumer], cmds := [0x040000#24] }, rfl, rfl, rfl⟩,
    ⟨{ pending 0x62#8 sOne with turns := [.producer] }, rfl, rfl⟩, ⟨pending 0x62#8 sOne, rfl, rfl, rfl⟩,
    ⟨{ sOne with held := some 0x040000#24 }, rfl, rfl, rfl⟩,
    ⟨{ pending 0x62#8 State.reset with cmds := [0x040000#24] }, rfl, rfl, rfl, rfl, rfl⟩⟩

theorem witness_ReservedOpcodeAnsweredIllegal :
    let s : State := { sOne with turns := [.consumer], cmds := [0x00FFFF#24] }
    let s' : State := { sOne with turns := [.consumer], cmds := [0x0C0000#24] }
    s.turns = .consumer :: [] ∧ s.held = none ∧ s.cmds = [0x00FFFF#24] ∧
    (0x00FFFF#24).toNat / 65536 = 0 ∧ s'.cmds = [0x0C0000#24] ∧
    12 ≤ (0x0C0000#24).toNat / 65536 ∧ 5 ≤ 5 := by decide

theorem witness_ResetValues :
    Config.standard.eomDefault = 0x0A#8 ∧ Config.standard.frmEnReset = true := by decide

/-! Lifecycle -/

theorem witness_LifecycleStateMachine :
    (∃ t, exec .resume State.reset = .next t) ∧ (∃ t, exec .suspend sMsg = .next t) ∧
    (∃ t, exec .pop1 sMsg = .next t) ∧
    (∃ t, step { sOne with turns := [.arrive 0x62#8] } = .next t) ∧
    ({ sOne with turns := [.arrive 0x62#8] } : State).nextInstr = none :=
  ⟨⟨_, rfl⟩, ⟨_, rfl⟩, ⟨_, rfl⟩, ⟨_, rfl⟩, rfl⟩

/-! Ring readers -/

theorem witness_Pop1Result :
    (RingInv State.reset ∧ State.reset.active = false) ∧
    (RingInv sEmpty ∧ sEmpty.active = true ∧ sEmpty.contents = []) ∧
    (RingInv sOne ∧ sOne.active = true ∧ sOne.contents = [0x61#8]) ∧
    (RingInv sPlain ∧ sPlain.active = true ∧
      sPlain.contents = [0x63#8, 0x64#8, 0x61#8, 0x62#8]) :=
  ⟨⟨inv_reset, by decide⟩, ⟨inv_empty, by decide⟩, ⟨inv_one, by decide⟩, ⟨inv_plain, by decide⟩⟩

theorem witness_GetResult :
    (RingInv State.reset ∧ State.reset.active = false) ∧ (RingInv sPlain ∧ sPlain.active = true) :=
  ⟨⟨inv_reset, by decide⟩, ⟨inv_plain, by decide⟩⟩

/-- The first terminator is at place 2: `n = 3` is the least window that holds it, `n = 2` the
greatest that does not. -/
theorem witness_GetmsgResult :
    (RingInv State.reset ∧ State.reset.active = false) ∧
    (RingInv sPlain ∧ sPlain.active = true ∧ sPlain.eom ∉ sPlain.contents) ∧
    (RingInv sMsg ∧ sMsg.active = true ∧ sMsg.contents[2]? = some sMsg.eom ∧
      sMsg.eom ∉ sMsg.contents.take 2 ∧ 2 < 3 ∧ 2 ≤ 2 ∧ sMsg.cfg.oversize = .keep) ∧
    (RingInv sDrop ∧ sDrop.active = true ∧ sDrop.contents[2]? = some sDrop.eom ∧
      sDrop.eom ∉ sDrop.contents.take 2 ∧ 2 ≤ 2 ∧ sDrop.cfg.oversize = .drop) :=
  ⟨⟨inv_reset, by decide⟩, ⟨inv_plain, by decide⟩, ⟨inv_msg, by decide⟩, ⟨inv_drop, by decide⟩⟩

theorem witness_DataCommandsNeedActive :
    State.reset.active = false ∧ (∃ n, Instr.get 65535 = .get n) ∧
    ∃ t, exec .pop1 State.reset = .next t ∧ t.out.rsp = some 0x030000#24 :=
  ⟨rfl, ⟨_, rfl⟩, _, rfl, rfl⟩

/-! Pass-throughs and configuration -/

theorem witness_PutResult :
    State.reset.active = false ∧
    (sPut.active = true ∧ sPut.txFree = false) ∧
    (let s : State := { sPut with txFree := true }
     s.active = true ∧ s.txFree = true) := by decide

theorem witness_Get1Result :
    State.reset.active = false ∧ (sOne.active = true ∧ sOne.rxRdy = false) ∧
    ((pending 0x62#8 sOne).active = true ∧ (pending 0x62#8 sOne).rxRdy = true) := by decide

theorem witness_SeteomResult : sOne.active = true ∧ State.reset.active = false := by decide

theorem witness_SetfrmResult : sOne.active = true ∧ State.reset.active = false := by decide

/-- A step while Active, and one while Suspended that writes `eom`. -/
theorem witness_ConfigurationFrozenWhileActive :
    (∃ t, step { sOne with turns := [.consumer], cmds := [0x09000D#24] } = .next t) ∧
    sOne.active = true ∧
    (∃ t, step { State.reset with turns := [.consumer], cmds := [0x09000D#24] } = .next t ∧
      t.eom ≠ State.reset.eom) :=
  ⟨⟨_, rfl⟩, rfl, ⟨_, rfl, by decide⟩⟩

/-! Status -/

theorem witness_RdregResult :
    RingInv sMsg ∧ sMsg.cfg.msgWidth ≤ 16 ∧
    RingInv (ring { cfgOf 4 .keep with msgWidth := 17 } fullMsg 0 0 4 1) ∧ 16 < 17 ∧
    5 ≤ 5 ∧ 4 ≤ 4 ∧ 0 ≤ 4 := ⟨inv_msg, by decide, ringInv_of (by decide), by decide⟩

theorem witness_FlagsMirrorContent :
    RingInv sMsg ∧ RingInv State.reset ∧ State.reset.active = false := ⟨inv_msg, inv_reset, rfl⟩

/-! The receive source -/

/-- Room, room for the last byte with the counter at its top, and a full ring. -/
theorem witness_RxevtResult :
    (RingInv (pending 0x62#8 sOne) ∧ (pending 0x62#8 sOne).active = true ∧
      (pending 0x62#8 sOne).rxRdy = true ∧ (pending 0x62#8 sOne).count < 8) ∧
    (RingInv sTop ∧ sTop.active = true ∧ sTop.rxRdy = true ∧ sTop.count < sTop.cfg.capacity ∧
      sTop.frmEn = true ∧ sTop.rxByte = sTop.eom ∧ sTop.msgs = 2 ^ sTop.cfg.msgWidth - 1) ∧
    (RingInv (pending 0x0A#8 sPlain) ∧ (pending 0x0A#8 sPlain).active = true ∧
      (pending 0x0A#8 sPlain).rxRdy = true ∧
      (pending 0x0A#8 sPlain).count = (pending 0x0A#8 sPlain).cfg.capacity) :=
  ⟨⟨inv_pending_one, by decide⟩, ⟨inv_top, by decide⟩, ⟨inv_pending_plain, by decide⟩⟩

theorem witness_RxevtOnlyWhenRequested :
    ¬(sOne.active = true ∧ sOne.rxRdy = true) ∧
    ¬(State.reset.active = true ∧ State.reset.rxRdy = true) ∧
    ({ sOne with turns := [.producer] } : State).turns = .producer :: [] := by decide

theorem witness_ArriveResult :
    let s : State := { sOne with turns := [.arrive 0x62#8] }
    s.turns = .arrive 0x62#8 :: [] ∧ s.active = true ∧ s.rxRdy = false ∧
    State.reset.active = false := by decide

theorem witness_OverrunOutcomes : ∀ o : LdOverrun,
    let s : State := { pending 0x62#8 sOne with
      turns := [.arrive 0x63#8], cfg := { sOne.cfg with ldOverrun := o } }
    s.turns = .arrive 0x63#8 :: [] ∧ s.active = true ∧ s.rxRdy = true ∧ s.cfg.ldOverrun = o :=
  fun _ => ⟨rfl, rfl, rfl, rfl⟩

theorem witness_TxFreeIsTheEnvironments :
    let s : State := { sOne with turns := [.txFree true] }
    s.turns = .txFree true :: [] ∧ ∃ t, step s = .next t := ⟨rfl, _, rfl⟩

theorem witness_CollapsedReceiveStep :
    (RingInv { sPlain with turns := [.arrive 0x62#8, .producer] } ∧ sPlain.active = true ∧
      sPlain.rxRdy = false) ∧
    RingInv { sOne with turns := [.arrive 0x62#8, .producer] } :=
  ⟨⟨ringInv_of (by decide), by decide⟩, ringInv_of (by decide)⟩

theorem witness_PendingByteSurvivesClear :
    RingInv (pending 0x0A#8 sMsg) ∧ (pending 0x0A#8 sMsg).active = true ∧
    (pending 0x0A#8 sMsg).rxRdy = true := ⟨inv_pending_msg, by decide⟩

/-! Invariants -/

theorem witness_StepKeepsInvariant :
    RingInv (pending 0x62#8 sOne) ∧ ∃ t, step (pending 0x62#8 sOne) = .next t :=
  ⟨inv_pending_one, _, rfl⟩

theorem witness_StepNeverStops : RingInv sPut := inv_put

theorem witness_WidthsHoldRanges :
    RingInv sMsg ∧ 1 ≤ 2 ∧ sMsg.cfg.capacity - 1 < 2 ^ 2 ∧ sMsg.cfg.capacity < 2 ^ 3 :=
  ⟨inv_msg, by decide⟩

theorem witness_IndexArithmeticIsModular : 4 < 5 ∧ 5 ≤ 5 ∧ 0 < 1 ∧ 1 ≤ 1 := by decide

/-- A GETMSG is about to take the message. -/
def sGetmsg : State := { sMsg with turns := [.consumer], cmds := [0x060004#24] }

theorem witness_StepKeepsFramingInvariant :
    FramingInv sGetmsg ∧ ¬ sGetmsg.nextDrainsTerm ∧ ∃ t, step sGetmsg = .next t := by
  refine ⟨⟨ringInv_of (by decide), by decide, by decide⟩, ?_, _, rfl⟩
  have h : sGetmsg.nextInstr = some (.getmsg 4) := rfl
  simp [State.nextDrainsTerm, h]

/-- RESUME and a terminator received. -/
theorem witness_CounterNeverExceedsTerminators :
    let s := State.resetFor (cfgOf 4 .keep) [0x010000#24] [.consumer, .arrive 0x0A#8, .producer]
    (∃ t, runFor 3 s = .next t ∧ t.msgs = 1) ∧
    ∀ k u, k < 3 → runFor k s = .next u → ¬ u.nextDrainsTerm := by
  refine ⟨⟨_, rfl, by decide⟩, fun k u hk hu => ?_⟩
  match k, hk with
  | 0, _ => cases hu; exact fun h => absurd h.1 (by decide)
  | 1, _ =>
    cases hu
    rintro ⟨_, _, ⟨h, _⟩ | ⟨n, h, _⟩⟩
    · exact absurd h (by decide)
    · cases h
  | 2, _ =>
    cases hu
    rintro ⟨_, _, ⟨h, _⟩ | ⟨n, h, _⟩⟩
    · exact absurd h (by decide)
    · cases h

theorem witness_DrainedTerminatorLeavesCounterStale :
    RingInv sMsg ∧ sMsg.active = true ∧ sMsg.msgs = sMsg.residentTerms ∧
    sMsg.eom ∈ sMsg.contents.take 3 ∧
    (let s := ringKeep 4 [(1, 0x0A#8), (2, 0x61#8)] 1 3 2 1
     RingInv s ∧ s.active = true ∧ s.msgs = s.residentTerms ∧
     s.contents = s.eom :: [0x61#8]) :=
  ⟨inv_msg, by decide, by decide, by decide, ringInv_of (by decide), by decide⟩

/-! Whole executions -/

/-- A run that receives a byte and takes one. -/
theorem witness_FifoLaw :
    let s : State := { pending 0x62#8 sOne with turns := [.producer, .consumer], cmds := [0x050001#24] }
    RingInv s ∧ s.cfg.oversize = .keep ∧ runWithoutClear 2 s = true ∧
    (∃ t, runFor 2 s = .next t) ∧ runAccepted 2 s = [0x62#8] ∧ runDelivered 2 s = [0x61#8] :=
  ⟨ringInv_of (by decide), by decide, by decide, ⟨_, rfl⟩, by decide, by decide⟩

/-- The same from an empty ring. -/
theorem witness_FifoLaw_empty :
    let s : State := { pending 0x62#8 sEmpty with turns := [.producer, .consumer], cmds := [0x040000#24] }
    RingInv s ∧ s.cfg.oversize = .keep ∧ runWithoutClear 2 s = true ∧ s.contents = [] ∧
    (∃ t, runFor 2 s = .next t) ∧ runDelivered 2 s = [0x62#8] :=
  ⟨ringInv_of (by decide), by decide, by decide, by decide, ⟨_, rfl⟩, by decide⟩

/-- A run that drops an oversized message. -/
theorem witness_FifoLawUnderDrop :
    let s : State := { sDrop with turns := [.consumer, .consumer], cmds := [0x060001#24, 0x050004#24] }
    RingInv s ∧ runWithoutClear 2 s = true ∧ (∃ t, runFor 2 s = .next t) ∧
    runDelivered 2 s = [0x63#8] :=
  ⟨ringInv_of (by decide), by decide, ⟨_, rfl⟩, by decide⟩

theorem witness_MessageBoundaryLaw :
    ∃ t, exec (.getmsg 3) sMsg = .next t ∧ t.out.dat = [0x61#8, 0x62#8, 0x0A#8] := ⟨_, rfl, rfl⟩

/-- The same `Q` at two places of the ring. -/
theorem witness_AbstractContentDecidesBehaviour :
    let s' : State := { ringKeep 8 [(2, 0x61#8), (5, 0x77#8)] 2 3 1 0 with rxByte := 0x55#8 }
    RingInv sOne ∧ RingInv s' ∧ SameView sOne s' ∧ s'.head ≠ sOne.head ∧ s'.mem ≠ sOne.mem :=
  ⟨inv_one, ringInv_of (by decide),
    ⟨rfl, by decide, rfl, rfl, rfl, rfl, rfl, by decide, rfl, rfl, rfl, rfl, rfl, rfl⟩,
    by decide, by decide⟩

/-! Ownership, ports and responses -/

theorem witness_WriteOwnership :
    (∃ t, exec .pop1 sMsg = .next t) ∧ (∃ t, exec .clear sMsg = .next t) ∧
    (∃ t, exec .rxevt sTop = .next t) ∧
    (∃ t, step { sOne with turns := [.arrive 0x62#8] } = .next t) ∧
    ({ sOne with turns := [.arrive 0x62#8] } : State).nextInstr = none :=
  ⟨⟨_, rfl⟩, ⟨_, rfl⟩, ⟨_, rfl⟩, ⟨_, rfl⟩, rfl⟩

theorem witness_OneResponsePerCommand :
    (∃ t, exec .rxevt sTop = .next t) ∧
    (∃ t, exec (.put 0x41#8) sPut = .next t) ∧ sPut.active = true ∧ sPut.txFree = false ∧
    (∃ t, exec (.get1 true) sOne = .next t) ∧ sOne.active = true ∧ sOne.rxRdy = false ∧
    ∃ t, exec (.get1 false) sOne = .next t :=
  ⟨⟨_, rfl⟩, ⟨_, rfl⟩, rfl, rfl, ⟨_, rfl⟩, rfl, rfl, _, rfl⟩

theorem witness_StatusesOfEachCommand :
    (∃ t, exec .pop1 sEmpty = .next t ∧ t.out.rsp = some 0x010000#24) ∧
    (∃ t, exec (.getmsg 3) sMsg = .next t ∧ t.out.rsp = some 0x000003#24) ∧
    rspStatus 0x010000#24 ≠ 0x00#8 := ⟨⟨_, rfl, rfl⟩, ⟨_, rfl, rfl⟩, by decide⟩

theorem witness_DataStreamBounds :
    let s : State := { sPlain with turns := [.consumer], cmds := [0x05FFFF#24] }
    RingInv s ∧ ∃ t, step s = .next t ∧ t.out.dat.length = s.cfg.capacity :=
  ⟨ringInv_of (by decide), _, rfl, by decide⟩

theorem witness_PushFailMarksRejectedPush :
    (RingInv (pending 0x0A#8 sPlain) ∧ ∃ t, step (pending 0x0A#8 sPlain) = .next t) ∧
    (RingInv (pending 0x62#8 sOne) ∧ ∃ t, step (pending 0x62#8 sOne) = .next t) :=
  ⟨⟨inv_pending_plain, _, rfl⟩, ⟨inv_pending_one, _, rfl⟩⟩

/-- A GET1 that takes the waiting byte, and a CLEAR that leaves it. -/
theorem witness_ReceiveRegisterClearers :
    let s : State := { pending 0x62#8 sOne with turns := [.consumer], cmds := [0x080000#24] }
    let s' : State := { pending 0x62#8 sOne with turns := [.consumer], cmds := [0x030000#24] }
    RingInv s ∧ s.rxRdy = true ∧ (∃ t, step s = .next t ∧ t.rxRdy = false) ∧
    RingInv s' ∧ s'.rxRdy = true ∧ ∃ t, step s' = .next t ∧ t.rxRdy = true :=
  ⟨ringInv_of (by decide), rfl, ⟨_, rfl, rfl⟩, ringInv_of (by decide), rfl, _, rfl, rfl⟩

theorem witness_ConfigurationIsFixed : ∃ t, runFor 2 sPut = .next t := ⟨_, rfl⟩

/-- The bounds of the capacity, a pair in and a pair outside the table, and a RESUME. -/
theorem witness_UnsupportedPairIsNotBuilt :
    ⟨2, 1⟩ ∉ [LdSetting.mk 1 1] ∧ 65535 < 65536 ∧ ⟨1, 1⟩ ∈ [LdSetting.mk 1 1] ∧ 1 ≤ 1 ∧
    65535 ≤ 65535 ∧
    ∃ t, step { State.reset with cmds := [0x010000#24] } = .next t ∧
      t.out.ldCfg = some Config.standard.ldSetting :=
  ⟨by decide, by decide, by decide, by decide, by decide, _, rfl, rfl⟩

/-! Hazards and progress -/

theorem witness_FullRingWithoutTerminatorStalls :
    RingInv (pending 0x0A#8 sPlain) ∧
    (let s := pending 0x0A#8 sPlain
     s.active = true ∧ s.count = s.cfg.capacity ∧ s.eom ∉ s.contents ∧ s.rxRdy = true) :=
  ⟨inv_pending_plain, by decide⟩

theorem witness_WaitingPutIsNeverAnswered :
    let s : State := { sPut with turns := [.txFree false, .consumer] }
    RingInv s ∧ s.active = true ∧ s.txFree = false ∧ s.held = some 0x070041#24 ∧
    decode (.cmd 0x070041#24) = .ok (.put 0x41#8) ∧ ∀ u ∈ s.turns, u ≠ .txFree true :=
  ⟨ringInv_of (by decide), rfl, rfl, rfl, rfl, by decide⟩

theorem witness_WaitingGet1IsNeverAnswered :
    let s : State := { sOne with
      held := some 0x080001#24, turns := [.consumer, .producer, .txFree true] }
    RingInv s ∧ s.active = true ∧ s.rxRdy = false ∧ s.held = some 0x080001#24 ∧
    decode (.cmd 0x080001#24) = .ok (.get1 true) ∧ ∀ b : Byte, .arrive b ∉ s.turns :=
  ⟨ringInv_of (by decide), rfl, rfl, rfl, rfl, by simp⟩

theorem witness_WaitingCommandDoesNotBlockReceive :
    let s : State := { sPut with turns := [.producer] }
    RingInv s ∧ s.active = true ∧ s.rxRdy = true ∧ s.held = some 0x070041#24 ∧
    s.turns = .producer :: [] ∧ s.count < s.cfg.capacity :=
  ⟨ringInv_of (by decide), rfl, rfl, rfl, rfl, by decide⟩

theorem witness_PendingEventIsServiced :
    RingInv { sPut with turns := [.consumer, .consumer] } ∧ sPut.rxRdy = true :=
  ⟨ringInv_of (by decide), rfl⟩

end Sys2Proof.Tests
end

