-- ==== Sys2Proof/Proofs/Scope.lean ====
section
/-! PROOFS. The statements of 00_scope.md: the index arithmetic of the ring (R16), the register
widths (R7) and the configuration record (R5). -/

namespace Sys2Proof.Machine

/-! ### Index arithmetic -/

/-- The sum `i + k` wraps at most once on the argument ranges of `add_mod` (R16). -/
theorem addMod_eq_mod {c i k : Nat} (hi : i < c) (hk : k ≤ c) : addMod c i k = (i + k) % c := by
  unfold addMod
  split
  case isTrue hwrap =>
    rw [Nat.mod_eq_sub_mod hwrap, Nat.mod_eq_of_lt (by omega)]
  case isFalse hroom =>
    rw [Nat.mod_eq_of_lt (by omega)]

/-- Settles O36: `addMod` wraps as `%` does, and `incMod` is the case `k = 1`. -/
theorem indexArithmeticIsModular : Obligations.IndexArithmeticIsModular := by
  intro c i k hi hk
  exact ⟨addMod_eq_mod hi hk, addMod_lt hi hk, (addMod_one hi).symm⟩

/-! ### Register widths -/

/-- `IW` is the least width of at least one bit that holds the indices `0` to `C - 1` (R7). -/
theorem indexWidth_le_iff (cfg : Config) {w : Nat} (hw : 1 ≤ w) :
    cfg.indexWidth ≤ w ↔ cfg.capacity - 1 < 2 ^ w := by
  have hC := cfg.capacity_pos
  rw [Config.indexWidth, max_le_iff, Nat.clog_le_iff_le_pow one_lt_two]
  omega

/-- `CNTW` is the least width that holds the counts `0` to `C` (R7). -/
theorem countWidth_le_iff (cfg : Config) {w : Nat} :
    cfg.countWidth ≤ w ↔ cfg.capacity < 2 ^ w := by
  rw [Config.countWidth, Nat.clog_le_iff_le_pow one_lt_two, Nat.succ_le_iff]

/-- Every index of the ring fits `IW` bits. -/
theorem lt_two_pow_indexWidth {cfg : Config} {i : Nat} (hi : i < cfg.capacity) :
    i < 2 ^ cfg.indexWidth :=
  calc i ≤ cfg.capacity - 1 := Nat.le_sub_one_of_lt hi
    _ < 2 ^ cfg.indexWidth := (indexWidth_le_iff cfg (le_max_left ..)).1 le_rfl

/-- Every count of stored bytes fits `CNTW` bits. -/
theorem lt_two_pow_countWidth {cfg : Config} {n : Nat} (hn : n ≤ cfg.capacity) :
    n < 2 ^ cfg.countWidth :=
  hn.trans_lt ((countWidth_le_iff cfg).1 le_rfl)

/-- Settles O35: the ranges of R26 fit the widths, whose leastness is one direction of
`indexWidth_le_iff` and `countWidth_le_iff`. -/
theorem widthsHoldRanges : Obligations.WidthsHoldRanges := by
  intro s h
  exact ⟨lt_two_pow_indexWidth h.head_lt, lt_two_pow_indexWidth h.tail_lt,
    lt_two_pow_countWidth h.count_le,
    fun _ hw hlt => (indexWidth_le_iff s.cfg hw).2 hlt,
    fun _ hlt => (countWidth_le_iff s.cfg).2 hlt⟩

/-! ### The configuration record -/

/-- No step of any agent touches the configuration (R5). -/
theorem step_cfg {s t : State} (h : step s = .next t) : t.cfg = s.cfg := by
  rcases step_cases s with ⟨i, s0, _, hsame, hexec⟩ | ⟨_, u, hu, hquiet⟩
  · obtain ⟨hcfg, _⟩ := exec_outside (hexec ▸ h)
    exact hcfg.trans hsame.cfg
  · obtain rfl : u = t := by simpa [hu] using h
    exact hquiet.cfg

/-- Settles O51: `step_cfg` carried along the run. -/
theorem configurationIsFixed : Obligations.ConfigurationIsFixed := by
  intro n s t h
  exact runFor_keeps (P := fun u => u.cfg = s.cfg)
    (fun _ _ hu hstep => (step_cfg hstep).trans hu) n rfl h

end Sys2Proof.Machine
end

/-! PROOFS. The statements of 10_state.md: the values after reset (R39), the enables and the flags
(R32, R35), the ring invariant (R25, R26, R41), the counter's relation to the ring (R30), who writes
what (R38), the receive register (R33), and that the abstract content decides behaviour (R25). -/

namespace Sys2Proof.Machine

section
variable {s s' t u : State}

/-! ### What an operation makes of the block

One inversion lemma for all operations: `exec` applies one of the changes of `OpEffect` and then
answers at the port. The invariants and the ownership rules below are cases over `OpEffect`. -/

/-- `t` is `s` but for the held command and the strobes: an answer, or a wait. -/
def PortOnly (s t : State) : Prop := ∃ p o, t = { s with held := p, out := o }

theorem PortOnly.emit (o : Outputs) (s : State) : PortOnly s (s.emit o) := ⟨s.held, o, rfl⟩

theorem PortOnly.respondWith (o : Outputs) (st : Status) (v : Word16) (d : List Byte) (s : State) :
    PortOnly s (s.respondWith o st v d) := ⟨none, _, rfl⟩

theorem PortOnly.respond (st : Status) (v : Word16) (d : List Byte) (s : State) :
    PortOnly s (s.respond st v d) := .respondWith ..

/-- The operations that take the waiting byte out of the receive register (10_state.md R33). -/
def takesRx : Instr → Bool
  | .rxevt | .get1 _ | .resume | .suspend => true
  | _ => false

/-- `OpEffect s i u`: the operation `i` can leave the block as `u`, its answer at the port aside. -/
inductive OpEffect (s : State) : Instr → State → Prop
  | resume : OpEffect s .resume { s.clearRing with rxRdy := false, active := true }
  | suspend : OpEffect s .suspend ({ s with active := false, rxRdy := false } : State).clearRing
  | clear : OpEffect s .clear s.clearRing
  | pop1 : s.active = true → 1 ≤ s.count → OpEffect s .pop1 (s.dropOldest 1)
  | get (n : Nat) : s.active = true → OpEffect s (.get n) (s.dropOldest (min n s.count))
  /-- Retrieved or dropped, the message goes up to the first resident terminator. -/
  | getmsg (n p : Nat) : s.active = true → scanTerm s s.eom 0 s.count = .ok (some p) →
      OpEffect s (.getmsg n) (s.dropOldest (p + 1)).fsConsume
  | get1 (f : Bool) : OpEffect s (.get1 f) s.readRx
  | seteom (b : Byte) : s.active = false → OpEffect s (.seteom b) { s with eom := b }
  | setfrm (f : Bool) : s.active = false → OpEffect s (.setfrm f) { s with frmEn := f }
  | rejected : OpEffect s .rxevt s.readRx
  | received : s.active = true → s.count ≠ s.cfg.capacity →
      OpEffect s .rxevt ((s.readRx.pushed s.rxByte).fsNoteByte s.rxByte)
  /-- Refused by status, nothing to take, or not enabled. -/
  | unchanged (i : Instr) : (takesRx i = true → s.evtReq = false) → OpEffect s i s

/-- A scan that finds a terminator finds it in every longer stretch. -/
theorem scanTerm_add_of_some {term : Byte} {p : Nat} (n : Nat) :
    ∀ {m i : Nat}, scanTerm s term i m = .ok (some p) → scanTerm s term i (m + n) = .ok (some p)
  | 0, i, h => by simp [scanTerm] at h
  | m + 1, i, h => by
    rw [Nat.succ_add, scanTerm]
    rw [scanTerm] at h
    cases hq : readQ s i with
    | error f => simp [hq] at h
    | ok b =>
      simp only [hq] at h ⊢
      split
      case isTrue ht => rwa [if_pos ht] at h
      case isFalse ht => rw [if_neg ht] at h; exact scanTerm_add_of_some n h

/-- A scan that finds nothing goes on behind its stretch. -/
theorem scanTerm_add_of_none {term : Byte} (n : Nat) :
    ∀ {m i : Nat}, scanTerm s term i m = .ok none →
      scanTerm s term i (m + n) = scanTerm s term (i + m) n
  | 0, i, h => by simp
  | m + 1, i, h => by
    rw [Nat.succ_add, scanTerm]
    rw [scanTerm] at h
    cases hq : readQ s i with
    | error f => simp [hq] at h
    | ok b =>
      simp only [hq] at h ⊢
      split
      case isTrue ht => simp [ht] at h
      case isFalse ht =>
        rw [if_neg ht] at h
        rw [scanTerm_add_of_none n h, Nat.add_right_comm, Nat.add_assoc]

/-- A slot that reads lies in the ring. -/
theorem lt_capacity_of_readSlot {i : Nat} {b : Byte} (h : readSlot s i = .ok b) :
    i < s.cfg.capacity := by
  by_contra hi
  simp [readSlot, hi] at h

theorem execPop1_effect (h : execPop1 s = .next t) : ∃ u, OpEffect s .pop1 u ∧ PortOnly u t := by
  rcases execPop1_cases h with ⟨_, rfl⟩ | ⟨_, _, rfl⟩ | ⟨b, ha, hcount, hread, rfl⟩
  · exact ⟨s, .unchanged _ nofun, .respond ..⟩
  · exact ⟨s, .unchanged _ nofun, .respond ..⟩
  · refine ⟨_, .pop1 ha (by omega), ?_⟩
    rw [State.dropOldest, addMod_one (lt_capacity_of_readSlot hread)]
    exact .respond ..

theorem execGet_effect {n : Nat} (h : execGet n s = .next t) :
    ∃ u, OpEffect s (.get n) u ∧ PortOnly u t := by
  rcases execGet_cases h with ⟨_, rfl⟩ | ⟨d, ha, _, rfl⟩
  · exact ⟨s, .unchanged _ nofun, .respond ..⟩
  · exact ⟨_, .get n ha, .respond ..⟩

theorem execGetmsg_effect {n : Nat} (h : execGetmsg n s = .next t) :
    ∃ u, OpEffect s (.getmsg n) u ∧ PortOnly u t := by
  have hsplit : min n s.count + (s.count - min n s.count) = s.count := by omega
  rcases execGetmsg_cases h with
    ⟨_, rfl⟩ | ⟨p, d, ha, hfound, _, rfl⟩ | ⟨p, ha, _, hnone, hfound, rfl⟩ | ⟨_, _, rfl⟩
  · exact ⟨s, .unchanged _ nofun, .respond ..⟩
  · exact ⟨_, .getmsg n p ha (hsplit ▸ scanTerm_add_of_some _ hfound), .respond ..⟩
  · refine ⟨_, .getmsg n p ha ?_, .respond ..⟩
    rw [← hsplit, scanTerm_add_of_none _ hnone, Nat.zero_add, hfound]
  · exact ⟨s, .unchanged _ nofun, .respond ..⟩

theorem execPut_portOnly {b : Byte} (h : execPut b s = .next t) : PortOnly s t := by
  unfold execPut at h
  split at h
  · split at h <;> cases h
    · exact .respondWith ..
    · exact .emit ..
  · cases h; exact .respond ..

theorem execRdreg_portOnly {r : Nat} (h : execRdreg r s = .next t) : PortOnly s t := by
  unfold execRdreg at h
  split at h <;> cases h <;> exact .respond ..

theorem execGet1_effect {f : Bool} (h : execGet1 f s = .next t) :
    ∃ u, OpEffect s (.get1 f) u ∧ PortOnly u t := by
  unfold execGet1 at h
  split at h
  · split at h
    · cases h; exact ⟨_, .get1 f, .respondWith ..⟩
    · have hreq : s.evtReq = false := by simp_all [State.evtReq]
      split at h <;> cases h
      · exact ⟨s, .unchanged _ fun _ => hreq, .emit ..⟩
      · exact ⟨s, .unchanged _ fun _ => hreq, .respond ..⟩
  · have hreq : s.evtReq = false := by simp_all [State.evtReq, State.ldRxie]
    cases h; exact ⟨s, .unchanged _ fun _ => hreq, .respond ..⟩

theorem execSeteom_effect {b : Byte} (h : execSeteom b s = .next t) :
    ∃ u, OpEffect s (.seteom b) u ∧ PortOnly u t := by
  unfold execSeteom at h
  split at h <;> cases h
  · exact ⟨s, .unchanged _ nofun, .respond ..⟩
  · exact ⟨_, .seteom b (by simp_all), .respond ..⟩

theorem execSetfrm_effect {f : Bool} (h : execSetfrm f s = .next t) :
    ∃ u, OpEffect s (.setfrm f) u ∧ PortOnly u t := by
  unfold execSetfrm at h
  split at h <;> cases h
  · exact ⟨s, .unchanged _ nofun, .respond ..⟩
  · exact ⟨_, .setfrm f (by simp_all), .respond ..⟩

/-- The event is requested of an Active channel with a waiting byte (42_receive_source.md R137). -/
theorem evtReq_iff (s : State) : s.evtReq = true ↔ s.rxRdy = true ∧ s.active = true := by
  simp [State.evtReq, State.ldRxie]

theorem execRxevt_effect (h : execRxevt s = .next t) :
    ∃ u, OpEffect s .rxevt u ∧ PortOnly u t := by
  rcases execRxevt_cases h with ⟨hreq, rfl⟩ | ⟨_, _, rfl⟩ | ⟨hreq, hroom, _, rfl⟩
  · exact ⟨s, .unchanged _ fun _ => hreq, .emit ..⟩
  · exact ⟨_, .rejected, .emit ..⟩
  · exact ⟨_, .received ((evtReq_iff s).1 hreq).2 hroom, .emit ..⟩

/-- WHAT AN OPERATION CAN DO: one of the changes of `OpEffect`, and an answer or a wait. -/
theorem exec_effect {i : Instr} (h : exec i s = .next t) : ∃ u, OpEffect s i u ∧ PortOnly u t := by
  cases i with
  | resume => cases h; exact ⟨_, .resume, .respondWith ..⟩
  | suspend => cases h; exact ⟨_, .suspend, .respond ..⟩
  | clear => cases h; exact ⟨_, .clear, .respond ..⟩
  | pop1 => exact execPop1_effect h
  | get n => exact execGet_effect h
  | getmsg n => exact execGetmsg_effect h
  | put b => exact ⟨s, .unchanged _ nofun, execPut_portOnly h⟩
  | get1 f => exact execGet1_effect h
  | seteom b => exact execSeteom_effect h
  | setfrm f => exact execSetfrm_effect h
  | rdreg r => exact ⟨s, .unchanged _ nofun, execRdreg_portOnly h⟩
  | rxevt => exact execRxevt_effect h

/-! ### The ring invariant (R25, R26, R41) -/

theorem satInc_le_succ (top m : Nat) : satInc top m ≤ m + 1 := by
  unfold satInc; split <;> omega

theorem le_satInc (top m : Nat) : m ≤ satInc top m := by
  unfold satInc; split <;> omega

/-- The counter saturates at its top (41_framing.md R125). -/
theorem satInc_le_top {top m : Nat} (h : m ≤ top) : satInc top m ≤ top := by
  unfold satInc; split <;> omega

theorem satDec_eq (m : Nat) : satDec m = m - 1 := by
  unfold satDec; split <;> omega

theorem fsNoteByte_msgs (b : Byte) (s : State) :
    (s.fsNoteByte b).msgs =
      if s.frmEn && isTerm b s.eom then satInc s.cfg.msgMax s.msgs else s.msgs := by
  rw [State.fsNoteByte_eq]

/-- Counting a byte keeps `msgs` between its old value and one more. -/
theorem fsNoteByte_msgs_bounds (b : Byte) (s : State) :
    s.msgs ≤ (s.fsNoteByte b).msgs ∧ (s.fsNoteByte b).msgs ≤ s.msgs + 1 := by
  rw [fsNoteByte_msgs]
  split
  · exact ⟨le_satInc .., satInc_le_succ ..⟩
  · exact ⟨le_rfl, Nat.le_succ _⟩

theorem PortOnly.inv (h : PortOnly s t) (hi : RingInv s) : RingInv t := by
  obtain ⟨p, o, rfl⟩ := h
  exact hi.congr rfl rfl rfl rfl rfl rfl rfl fun hf => (hi.suspended hf).2.2

theorem RingInv.readRx (hi : RingInv s) : RingInv s.readRx :=
  hi.congr rfl rfl rfl rfl rfl rfl rfl fun _ => rfl

theorem RingInv.fsConsume (hi : RingInv s) (ha : s.active = true) : RingInv s.fsConsume :=
  hi.with_msgs ha (by rw [satDec_eq]; exact (Nat.sub_le ..).trans hi.msgs_le)

theorem RingInv.fsNoteByte (hi : RingInv s) (ha : s.active = true) (b : Byte) :
    RingInv (s.fsNoteByte b) := by
  rw [State.fsNoteByte_eq]
  refine hi.with_msgs ha ?_
  split
  · exact satInc_le_top hi.msgs_le
  · exact hi.msgs_le

/-- An Active channel's receive event served into a ring with room. -/
theorem RingInv.received (hi : RingInv s) (ha : s.active = true)
    (hroom : s.count ≠ s.cfg.capacity) (b : Byte) :
    RingInv ((s.readRx.pushed b).fsNoteByte b) :=
  (hi.readRx.pushed ha b (hi.count_le.lt_of_ne hroom)).fsNoteByte ha b

theorem OpEffect.inv {i : Instr} (he : OpEffect s i u) (hi : RingInv s) : RingInv u := by
  cases he with
  | resume => exact hi.cleared rfl rfl rfl rfl rfl rfl nofun
  | suspend => exact hi.cleared rfl rfl rfl rfl rfl rfl fun _ => rfl
  | clear => exact hi.cleared rfl rfl rfl rfl rfl rfl fun hf => (hi.suspended hf).2.2
  | pop1 ha hcount => exact hi.dropOldest ha hcount
  | get n ha => exact hi.dropOldest ha (Nat.min_le_right ..)
  | getmsg n p ha hscan =>
    obtain ⟨_, hp⟩ := scanTerm_bounds hscan
    exact (hi.dropOldest ha (by omega)).fsConsume ha
  | get1 | rejected => exact hi.readRx
  | seteom | setfrm =>
    exact hi.congr rfl rfl rfl rfl rfl rfl rfl fun hf => (hi.suspended hf).2.2
  | received ha hroom => exact hi.received ha hroom _
  | unchanged => exact hi

theorem exec_inv {i : Instr} (hi : RingInv s) (h : exec i s = .next t) : RingInv t := by
  obtain ⟨u, heffect, hport⟩ := exec_effect h
  exact hport.inv (heffect.inv hi)

/-- Settles O32: an operation keeps the invariant by its `OpEffect`, a quiet step leaves all that
the invariant reads. -/
theorem stepKeepsInvariant : Obligations.StepKeepsInvariant := by
  intro s t hi h
  rcases step_cases s with ⟨i, s0, _, hsame, hexec⟩ | ⟨_, v, hv, hquiet⟩
  · exact exec_inv (hsame.inv hi) (hexec ▸ h)
  · obtain rfl : v = t := by simpa [hv] using h
    exact hquiet.inv hi

/-! ### The counter's relation to the ring (R30) -/

/-- Nothing is counted, so nothing can be counted too often. -/
theorem FramingInv.of_msgs_zero (hi : RingInv s) (hm : s.msgs = 0) : FramingInv s :=
  ⟨hi, hm ▸ Nat.zero_le _, fun _ => hm⟩

theorem FramingInv.congr (h : FramingInv s) (hi : RingInv t) (hc : t.contents = s.contents)
    (he : t.eom = s.eom) (hm : t.msgs = s.msgs) (hf : t.frmEn = s.frmEn) : FramingInv t where
  inv := hi
  msgs_le_terms := by
    rw [hm, State.residentTerms, hc, he]; exact h.msgs_le_terms
  frm_off := fun hoff => hm.trans (h.frm_off (hf ▸ hoff))

theorem PortOnly.framingInv (h : PortOnly s t) (hf : FramingInv s) : FramingInv t := by
  have hi := h.inv hf.inv
  obtain ⟨p, o, rfl⟩ := h
  exact hf.congr hi (contents_congr rfl rfl rfl rfl) rfl rfl rfl

theorem SameBlock.framingInv (h : SameBlock s t) (hf : FramingInv s) : FramingInv t :=
  hf.congr (h.inv hf.inv) h.contents h.eom h.msgs h.frmEn

theorem QuietStep.framingInv (h : QuietStep s t) (hf : FramingInv s) : FramingInv t :=
  hf.congr (h.inv hf.inv) h.contents h.eom h.msgs h.frmEn

/-- The terminators resident before a removal are those removed and those left. -/
theorem RingInv.residentTerms_dropOldest (hi : RingInv s) {k : Nat} (hk : k ≤ s.count) :
    (s.contents.take k).count s.eom + (s.dropOldest k).residentTerms = s.residentTerms := by
  rw [State.residentTerms, State.residentTerms, hi.contents_dropOldest hk, State.dropOldest_eom,
    ← List.count_append, List.take_append_drop]

/-- A stored terminator is one more resident terminator. -/
theorem RingInv.residentTerms_pushed (hi : RingInv s) (b : Byte) (hn : s.count < s.cfg.capacity) :
    (s.pushed b).residentTerms = s.residentTerms + if b = s.eom then 1 else 0 := by
  have heom : (s.pushed b).eom = s.eom := rfl
  simp [State.residentTerms, hi.contents_pushed b hn, heom, List.count_singleton]

/-- A removal that the counter does not hear of is safe when it removes no terminator, or when
framing is disabled and the counter is 0 anyway. -/
theorem FramingInv.dropOldest (h : FramingInv s) (ha : s.active = true) {k : Nat}
    (hk : k ≤ s.count) (hterm : s.frmEn = true → s.eom ∉ s.contents.take k) :
    FramingInv (s.dropOldest k) := by
  have hi := h.inv.dropOldest ha hk
  cases hfrm : s.frmEn with
  | false => exact .of_msgs_zero hi (h.frm_off hfrm)
  | true =>
    have hsum := h.inv.residentTerms_dropOldest hk
    rw [List.count_eq_zero_of_not_mem (hterm hfrm), Nat.zero_add] at hsum
    exact ⟨hi, hsum ▸ h.msgs_le_terms, h.frm_off⟩

/-- Up to its first terminator the ring holds one terminator. -/
theorem RingInv.count_take_of_scanTerm (hi : RingInv s) {p : Nat}
    (hscan : scanTerm s s.eom 0 s.count = .ok (some p)) :
    (s.contents.take (p + 1)).count s.eom = 1 := by
  obtain ⟨hp, hbefore⟩ := hi.scanTerm_first (by omega) hscan
  have hnone : s.eom ∉ s.contents.take p := by
    intro hmem
    obtain ⟨j, hj, hget⟩ := List.mem_take_iff_getElem.1 hmem
    exact hbefore j (Nat.zero_le _) (by omega) (List.getElem?_eq_some_iff.2 ⟨by omega, hget⟩)
  rw [List.take_add_one, hp, List.count_append, List.count_eq_zero_of_not_mem hnone]
  simp

/-- GETMSG takes one terminator out of the ring and one message off the counter (R121). -/
theorem FramingInv.takeMessage (h : FramingInv s) (ha : s.active = true) {p : Nat}
    (hscan : scanTerm s s.eom 0 s.count = .ok (some p)) :
    FramingInv (s.dropOldest (p + 1)).fsConsume := by
  obtain ⟨_, hp⟩ := scanTerm_bounds hscan
  have hk : p + 1 ≤ s.count := by omega
  have hsum := h.inv.residentTerms_dropOldest hk
  rw [h.inv.count_take_of_scanTerm hscan] at hsum
  have hmsgs : (s.dropOldest (p + 1)).fsConsume.msgs = s.msgs - 1 := satDec_eq _
  refine ⟨(h.inv.dropOldest ha hk).fsConsume ha, ?_, fun hoff => ?_⟩
  · have hterms : (s.dropOldest (p + 1)).fsConsume.residentTerms
        = (s.dropOldest (p + 1)).residentTerms := rfl
    have := h.msgs_le_terms
    omega
  · rw [hmsgs, h.frm_off hoff]

/-- RXEVT counts a byte it stored only if that byte is a terminator (R120). -/
theorem FramingInv.received (h : FramingInv s) (ha : s.active = true)
    (hroom : s.count ≠ s.cfg.capacity) (b : Byte) :
    FramingInv ((s.readRx.pushed b).fsNoteByte b) := by
  have hmsgs : ((s.readRx.pushed b).fsNoteByte b).msgs =
      if s.frmEn && isTerm b s.eom then satInc s.cfg.msgMax s.msgs else s.msgs :=
    fsNoteByte_msgs b _
  have hterms : ((s.readRx.pushed b).fsNoteByte b).residentTerms =
      s.residentTerms + if b = s.eom then 1 else 0 := by
    rw [State.fsNoteByte_eq]
    exact h.inv.readRx.residentTerms_pushed b (h.inv.count_le.lt_of_ne hroom)
  refine ⟨h.inv.received ha hroom b, ?_, fun hoff => ?_⟩
  · have hle := h.msgs_le_terms
    rw [hmsgs, hterms]
    split
    case isTrue hcounted =>
      have hb : b = s.eom := by simp_all [isTerm]
      have := satInc_le_succ s.cfg.msgMax s.msgs
      rw [if_pos hb]; omega
    case isFalse => omega
  · have hoff : s.frmEn = false := by simpa [State.pushed] using hoff
    rw [hmsgs, hoff]
    exact h.frm_off hoff

/-- How many of the oldest bytes an operation may take without a word to the counter. -/
def uncountedPops : Instr → Nat
  | .pop1 => 1
  | .get n => n
  | _ => 0

/-- `uncountedPops` is R30's usage condition, told by operation. -/
theorem nextDrainsTerm_of_uncountedPops {i : Instr} (hnext : s.nextInstr = some i)
    (ha : s.active = true) (hfrm : s.frmEn = true)
    (hmem : s.eom ∈ s.contents.take (uncountedPops i)) : s.nextDrainsTerm := by
  refine ⟨ha, hfrm, ?_⟩
  cases i with
  | pop1 => exact .inl ⟨hnext, hmem⟩
  | get n => exact .inr ⟨n, hnext, hmem⟩
  | _ => simp [uncountedPops] at hmem

theorem OpEffect.framingInv {i : Instr} (he : OpEffect s i u) (h : FramingInv s)
    (hterm : s.active = true → s.frmEn = true → s.eom ∉ s.contents.take (uncountedPops i)) :
    FramingInv u := by
  have hi := he.inv h.inv
  cases he with
  | resume | suspend | clear => exact .of_msgs_zero hi rfl
  | pop1 ha hcount => exact h.dropOldest ha hcount (hterm ha)
  | get n ha =>
    refine h.dropOldest ha (Nat.min_le_right ..) fun hfrm hmem => hterm ha hfrm ?_
    exact List.take_subset_take_left _ (Nat.min_le_left ..) hmem
  | getmsg n p ha hscan => exact h.takeMessage ha hscan
  | get1 | rejected => exact h.congr hi (contents_congr rfl rfl rfl rfl) rfl rfl rfl
  | seteom b hs | setfrm b hs =>
    obtain ⟨_, hm, _⟩ := h.inv.suspended hs
    exact .of_msgs_zero hi hm
  | received ha hroom => exact h.received ha hroom _
  | unchanged => exact h

theorem step_framingInv (h : FramingInv s) (hdrain : ¬ s.nextDrainsTerm)
    (hstep : step s = .next t) : FramingInv t := by
  rcases step_cases s with ⟨i, s0, hnext, hsame, hexec⟩ | ⟨_, v, hv, hquiet⟩
  · obtain ⟨u, heffect, hport⟩ := exec_effect (hexec ▸ hstep)
    refine hport.framingInv (heffect.framingInv (hsame.framingInv h) ?_)
    rw [hsame.active, hsame.frmEn, hsame.eom, hsame.contents]
    exact fun ha hfrm hmem => hdrain (nextDrainsTerm_of_uncountedPops hnext ha hfrm hmem)
  · obtain rfl : v = t := by simpa [hv] using hstep
    exact hquiet.framingInv h

/-- Settles O38: GETMSG takes terminator and count together, RXEVT adds both, and what POP1 and GET
take holds no terminator or is not counted. -/
theorem stepKeepsFramingInvariant : Obligations.StepKeepsFramingInvariant :=
  fun _ _ => step_framingInv

/-! ### The state after reset (R39) -/

/-- Settles O31: the ring is empty, so that no slot need have been written. -/
theorem resetMeetsInvariant : Obligations.ResetMeetsInvariant := fun cfg =>
  { mem_wf := .nil
    mem_within := nofun
    count_le := Nat.zero_le _
    head_lt := cfg.capacity_pos
    tail_lt := cfg.capacity_pos
    tail_eq := (addMod_zero cfg.capacity_pos).symm
    occupied := nofun
    msgs_le := Nat.zero_le _
    suspended := fun _ => ⟨rfl, rfl, rfl⟩ }

/-- Settles O37: the counter starts at 0. -/
theorem resetMeetsFramingInvariant : Obligations.ResetMeetsFramingInvariant := fun cfg =>
  .of_msgs_zero (resetMeetsInvariant cfg) rfl

/-- Settles O8: every value is the one `State.resetWith` writes; FULL is 0 because a ring has at
least one slot (R5). -/
theorem resetValues : Obligations.ResetValues := by
  intro cfg heom hfrm
  have hfull : (State.resetWith cfg).isFull = false :=
    decide_eq_false cfg.capacity_pos.ne
  have hstatus : (State.resetWith cfg).statusReg = 0x0012#16 := by
    have hfrmEn : (State.resetWith cfg).frmEn = true := hfrm
    rw [State.statusReg, hfull, hfrmEn]
    change 0#11 ++ BitVec.ofBool true ++ BitVec.ofBool false ++ BitVec.ofBool false
      ++ BitVec.ofBool true ++ BitVec.ofBool false = 0x0012#16
    decide
  exact ⟨rfl, rfl, heom, hfrm, rfl, rfl, rfl, rfl, rfl, fun _ => rfl, rfl, rfl, rfl, rfl, hfull,
    rfl, hstatus⟩

/-- Placing commands and a schedule touches no register. -/
theorem resetFor_same (cfg : Config) (cmds : List Word24) (turns : List Turn) :
    SameBlock (State.resetWith cfg) (State.resetFor cfg cmds turns) :=
  ⟨rfl, rfl, rfl, rfl, rfl, rfl, rfl, rfl, rfl, rfl, rfl, rfl, rfl, rfl⟩

/-! ### Runs from reset under R30's usage condition -/

/-- A property that every step under a condition keeps holds at the end of every run that meets the
condition before each of its steps. -/
theorem runFor_keeps_under {P Q : State → Prop}
    (hstep : ∀ u v, P u → Q u → step u = .next v → P v) :
    ∀ (n : Nat) {s t : State}, P s → runFor n s = .next t →
      (∀ k u, k < n → runFor k s = .next u → Q u) → P t
  | 0, s, t, hs, h, _ => by cases h; exact hs
  | n + 1, s, t, hs, h, hQ => by
    cases hu : step s with
    | next u =>
      refine runFor_keeps_under hstep n (hstep s u hs (hQ 0 s n.succ_pos rfl) hu)
        (runFor_of_next n hu ▸ h) fun k v hk hv => hQ (k + 1) v (Nat.succ_lt_succ hk) ?_
      rw [runFor_of_next k hu, hv]
    | fault f => rw [runFor_of_fault n hu] at h; cases h
    | refused r => rw [runFor_of_refused n hu] at h; cases h

/-- Settles O39: `FramingInv` from reset on, kept by every step of such a run. -/
theorem counterNeverExceedsTerminators : Obligations.CounterNeverExceedsTerminators := by
  intro cfg cmds turns n t hrun hdrain
  have hreset := (resetFor_same cfg cmds turns).framingInv (resetMeetsFramingInvariant cfg)
  have hfinal : FramingInv t := runFor_keeps_under
    (fun _ _ hu hQ hstep => step_framingInv hu hQ hstep) n hreset hrun hdrain
  exact hfinal.msgs_le_terms

/-! ### The flags and the enables (R32, R35) -/

/-- Settles O56: between steps `pause` is 0, so the model computes all three from `active` (R34). -/
theorem lineDriverEnablesFollowActive : Obligations.LineDriverEnablesFollowActive :=
  fun _ => ⟨rfl, rfl, rfl⟩

/-- Settles O23: the content has `count` bytes; a Suspended channel has none, and a capacity that is
not 0. -/
theorem flagsMirrorContent : Obligations.FlagsMirrorContent := by
  intro s hi
  have hlen := hi.contents_length
  refine ⟨?_, ?_, by simp [State.msgAvl], rfl, rfl, rfl, fun hs => ?_⟩
  · rw [State.isEmpty, decide_eq_true_iff, ← hlen, List.length_eq_zero_iff]
  · rw [State.isFull, decide_eq_true_iff, hlen]
  · obtain ⟨hcount, hmsgs, _⟩ := hi.suspended hs
    have hpos := s.cfg.capacity_pos.ne
    simp [State.isEmpty, State.isFull, State.msgAvl, hcount, hmsgs, hpos]

/-! ### Who writes what (R38) -/

/-- A command does not write `mem`, counts nothing up, and writes `tail` only to clear the ring. -/
theorem OpEffect.command_writes {i : Instr} (he : OpEffect s i u) (hi : i ≠ .rxevt) :
    u.mem = s.mem ∧ u.count ≤ s.count ∧ u.msgs ≤ s.msgs ∧
      (u.tail = s.tail ∨ ((i = .resume ∨ i = .suspend ∨ i = .clear) ∧ u.tail = 0)) := by
  cases he with
  | resume => exact ⟨rfl, Nat.zero_le _, Nat.zero_le _, .inr ⟨.inl rfl, rfl⟩⟩
  | suspend => exact ⟨rfl, Nat.zero_le _, Nat.zero_le _, .inr ⟨.inr (.inl rfl), rfl⟩⟩
  | clear => exact ⟨rfl, Nat.zero_le _, Nat.zero_le _, .inr ⟨.inr (.inr rfl), rfl⟩⟩
  | pop1 | get => exact ⟨rfl, Nat.sub_le .., le_rfl, .inl rfl⟩
  | getmsg n p =>
    exact ⟨rfl, Nat.sub_le .., (satDec_eq s.msgs).trans_le (Nat.sub_le ..), .inl rfl⟩
  | get1 | seteom | setfrm | unchanged => exact ⟨rfl, le_rfl, le_rfl, .inl rfl⟩
  | rejected | received => exact absurd rfl hi

/-- RXEVT leaves the consumer's side alone and adds at most one byte and one message. -/
theorem execRxevt_writes (h : execRxevt s = .next t) :
    t.head = s.head ∧ t.eom = s.eom ∧ t.frmEn = s.frmEn ∧ t.active = s.active ∧
      s.count ≤ t.count ∧ t.count ≤ s.count + 1 ∧ s.msgs ≤ t.msgs ∧ t.msgs ≤ s.msgs + 1 ∧
      t.held = s.held := by
  rcases execRxevt_cases h with ⟨_, rfl⟩ | ⟨_, _, rfl⟩ | ⟨_, _, _, rfl⟩
  · exact ⟨rfl, rfl, rfl, rfl, le_rfl, Nat.le_succ _, le_rfl, Nat.le_succ _, rfl⟩
  · exact ⟨rfl, rfl, rfl, rfl, le_rfl, Nat.le_succ _, le_rfl, Nat.le_succ _, rfl⟩
  · obtain ⟨hle, hsucc⟩ := fsNoteByte_msgs_bounds s.rxByte (s.readRx.pushed s.rxByte)
    have hcount : (((s.readRx.pushed s.rxByte).fsNoteByte s.rxByte).emit { rxRd := true }).count
        = s.count + 1 := State.fsNoteByte_count ..
    simp only [hcount, State.emit_head, State.emit_eom, State.emit_frmEn, State.emit_active,
      State.emit_held, State.emit_msgs, State.fsNoteByte_head, State.fsNoteByte_eom,
      State.fsNoteByte_frmEn, State.fsNoteByte_active, State.fsNoteByte_held]
    exact ⟨rfl, rfl, rfl, rfl, Nat.le_succ _, le_rfl, hle, hsucc, rfl⟩

/-- Settles O45: `OpEffect` for the commands, the producer's own cases for RXEVT, `QuietStep` for a
step that runs no operation. -/
theorem writeOwnership : Obligations.WriteOwnership := by
  refine ⟨fun i s t hi h => ?_, fun s t h => ?_, fun s t h hnone => ?_⟩
  · obtain ⟨hcfg, hturns, hcmds, _, _, hbyte⟩ := exec_outside h
    obtain ⟨u, heffect, p, o, rfl⟩ := exec_effect h
    obtain ⟨hmem, hcount, hmsgs, htail⟩ := heffect.command_writes hi
    exact ⟨hmem, hcount, hmsgs, hbyte, htail, hcfg, hturns, hcmds⟩
  · obtain ⟨hcfg, _, hcmds, _, _, hbyte⟩ := exec_outside h
    obtain ⟨hhead, heom, hfrm, ha, hcount, hcount', hmsgs, hmsgs', hheld⟩ := execRxevt_writes h
    exact ⟨hhead, heom, hfrm, ha, hcount, hcount', hmsgs, hmsgs', hheld, hcmds, hbyte, hcfg⟩
  · rcases step_cases s with ⟨i, _, hsome, _⟩ | ⟨_, v, hv, hquiet⟩
    · rw [hnone] at hsome; cases hsome
    · obtain rfl : v = t := by simpa [hv] using h
      exact ⟨hquiet.mem, hquiet.head, hquiet.tail, hquiet.count, hquiet.eom, hquiet.frmEn,
        hquiet.msgs, hquiet.active, hquiet.cfg⟩

/-! ### The receive register (R33) -/

/-- A requested event leaves the receive register in the operations of `takesRx` and in no other. -/
theorem OpEffect.rxRdy {i : Instr} (he : OpEffect s i u) (hreq : s.evtReq = true) :
    u.rxRdy = !takesRx i := by
  obtain ⟨hrx, _⟩ := (evtReq_iff s).1 hreq
  cases he with
  | resume | suspend | get1 | rejected => rfl
  | clear | pop1 | get | getmsg | seteom | setfrm => exact hrx
  | received => exact State.fsNoteByte_rxRdy ..
  | unchanged _ hi =>
    have hkeeps : takesRx i = false := by
      by_contra htakes
      rw [hi (by simpa using htakes)] at hreq
      cases hreq
    rw [hrx, hkeeps]; rfl

theorem takesRx_iff (i : Instr) :
    takesRx i = true ↔ i = .rxevt ∨ (∃ f, i = .get1 f) ∨ i = .resume ∨ i = .suspend := by
  cases i <;> simp [takesRx]

/-- With the invariant a waiting byte is a requested event: a Suspended channel holds none. -/
theorem RingInv.evtReq (hi : RingInv s) (hrx : s.rxRdy = true) : s.evtReq = true := by
  refine (evtReq_iff s).2 ⟨hrx, ?_⟩
  by_contra hs
  obtain ⟨_, _, hrx'⟩ := hi.suspended (by simpa using hs)
  rw [hrx] at hrx'; cases hrx'

/-- Settles O50: `takesRx` lists the four; a quiet step clears no data-ready condition. -/
theorem receiveRegisterClearers : Obligations.ReceiveRegisterClearers := by
  intro s t hi hrx h
  rcases step_cases s with ⟨i, s0, hnext, hsame, hexec⟩ | ⟨hnone, v, hv, hquiet⟩
  · obtain ⟨u, heffect, p, o, rfl⟩ := exec_effect (hexec ▸ h)
    have hclear := heffect.rxRdy ((hsame.inv hi).evtReq (hsame.rxRdy.trans hrx))
    simpa [hnext, hclear] using takesRx_iff i
  · obtain rfl : v = t := by simpa [hv] using h
    have hkept : v.rxRdy = true := hquiet.rxRdy.elim (·.trans hrx) (·.2)
    simp [hkept, hnone]

/-! ### The abstract content decides behaviour (R25)

Each update of the state keeps `SameView`; each meaning, in two states with the invariant that look
alike, takes the same branch and applies the same updates. -/

theorem SameView.refl (s : State) : SameView s s :=
  ⟨rfl, rfl, rfl, rfl, rfl, rfl, rfl, fun _ => rfl, rfl, rfl, rfl, rfl, rfl, rfl⟩

theorem SameView.emit (hv : SameView s s') (o : Outputs) : SameView (s.emit o) (s'.emit o) :=
  { hv with out := rfl }

theorem SameView.respondWith (hv : SameView s s') (o : Outputs) (st : Status) (v : Word16)
    (d : List Byte) : SameView (s.respondWith o st v d) (s'.respondWith o st v d) :=
  { hv with held := rfl, out := rfl }

theorem SameView.respond (hv : SameView s s') (st : Status) (v : Word16) (d : List Byte) :
    SameView (s.respond st v d) (s'.respond st v d) := hv.respondWith ..

theorem SameView.readRx (hv : SameView s s') : SameView s.readRx s'.readRx :=
  { hv with rxRdy := rfl, rxByte := nofun }

theorem SameView.clearRing (hv : SameView s s') : SameView s.clearRing s'.clearRing :=
  { hv with contents := rfl, msgs := rfl }

theorem SameView.with_active (hv : SameView s s') (a : Bool) :
    SameView { s with active := a } { s' with active := a } := { hv with active := rfl }

theorem SameView.with_turns (hv : SameView s s') (ts : List Turn) :
    SameView { s with turns := ts } { s' with turns := ts } := { hv with turns := rfl }

theorem SameView.fsConsume (hv : SameView s s') : SameView s.fsConsume s'.fsConsume :=
  { hv with msgs := congrArg satDec hv.msgs }

theorem SameView.fsNoteByte (hv : SameView s s') (b : Byte) :
    SameView (s.fsNoteByte b) (s'.fsNoteByte b) := by
  rw [State.fsNoteByte_eq, State.fsNoteByte_eq]
  exact { hv with msgs := by rw [hv.msgs, hv.frmEn, hv.eom, hv.cfg] }

theorem SameView.count (hv : SameView s s') (hs : RingInv s) (hs' : RingInv s') :
    s'.count = s.count := by
  rw [← hs.contents_length, ← hs'.contents_length, hv.contents]

theorem SameView.dropOldest (hv : SameView s s') (hs : RingInv s) (hs' : RingInv s') {k : Nat}
    (hk : k ≤ s.count) : SameView (s.dropOldest k) (s'.dropOldest k) :=
  { hv with
    contents := by
      have hk' : k ≤ s'.count := (hv.count hs hs').symm ▸ hk
      rw [hs.contents_dropOldest hk, hs'.contents_dropOldest hk', hv.contents] }

theorem SameView.pushed (hv : SameView s s') (hs : RingInv s) (hs' : RingInv s') (b : Byte)
    (hn : s.count < s.cfg.capacity) : SameView (s.pushed b) (s'.pushed b) :=
  { hv with
    contents := by
      have hn' : s'.count < s'.cfg.capacity := by rwa [hv.count hs hs', hv.cfg]
      rw [hs.contents_pushed b hn, hs'.contents_pushed b hn', hv.contents] }

/-- Both outcomes are next states, and these look alike. -/
def SameNext (o o' : Host.Outcome State Fault Refusal) : Prop :=
  ∃ t t', o = .next t ∧ o' = .next t' ∧ SameView t t'

theorem SameView.next (hv : SameView t u) : SameNext (.next t) (.next u) := ⟨_, _, rfl, rfl, hv⟩

theorem execResume_sameNext (hv : SameView s s') : SameNext (execResume s) (execResume s') := by
  rw [execResume, execResume, hv.cfg]
  exact ((hv.clearRing.readRx.with_active true).respondWith ..).next

theorem execSuspend_sameNext (hv : SameView s s') : SameNext (execSuspend s) (execSuspend s') :=
  (((hv.with_active false).readRx.clearRing).respond ..).next

theorem execClear_sameNext (hv : SameView s s') : SameNext (execClear s) (execClear s') :=
  (hv.clearRing.respond ..).next

theorem execPop1_sameNext (hs : RingInv s) (hs' : RingInv s') (hv : SameView s s') :
    SameNext (execPop1 s) (execPop1 s') := by
  rw [execPop1, execPop1, hs.rbPopOne_eq, hs'.rbPopOne_eq, hv.active, hv.contents]
  split
  · cases hq : s.contents with
    | nil => exact (hv.respond ..).next
    | cons b q =>
      have hlen := hs.contents_length
      have hk : 1 ≤ s.count := by rw [← hlen, hq]; simp
      exact ((hv.dropOldest hs hs' hk).respond ..).next
  · exact (hv.respond ..).next

theorem execGet_sameNext (hs : RingInv s) (hs' : RingInv s') (hv : SameView s s') (n : Nat) :
    SameNext (execGet n s) (execGet n s') := by
  rw [execGet, execGet, hs.rbPopUpTo_eq, hs'.rbPopUpTo_eq, hv.active, hv.contents,
    hv.count hs hs']
  split
  · exact ((hv.dropOldest hs hs' (Nat.min_le_right ..)).respond ..).next
  · exact (hv.respond ..).next

/-- A terminator found in the window or behind it lies in the ring. -/
theorem RingInv.lt_count_of_findIdx? (hi : RingInv s) {p : Byte → Bool} {q : List Byte} {j : Nat}
    (hq : q <+: s.contents) (h : q.findIdx? p = some j) : j + 1 ≤ s.count := by
  obtain ⟨hlt, _⟩ := List.findIdx?_eq_some_iff_getElem.1 h
  have := hq.length_le
  rw [hi.contents_length] at this
  omega

theorem execGetmsg_sameNext (hs : RingInv s) (hs' : RingInv s') (hv : SameView s s') (n : Nat) :
    SameNext (execGetmsg n s) (execGetmsg n s') := by
  have taken : ∀ {p : Nat} (st : Status) (v : Word16) (d : List Byte), p + 1 ≤ s.count →
      SameNext (.next ((s.dropOldest (p + 1)).fsConsume.respond st v d))
        (.next ((s'.dropOldest (p + 1)).fsConsume.respond st v d)) :=
    fun _ _ _ hp => ((hv.dropOldest hs hs' hp).fsConsume.respond ..).next
  rw [execGetmsg, execGetmsg, hv.active, hv.eom]
  split
  · cases hwin : (s.contents.take n).findIdx? (isTerm · s.eom) with
    | some p =>
      rw [hs.rbPopUntilTerm_found hwin, hs'.rbPopUntilTerm_found (hv.contents ▸ hwin), hv.contents]
      exact taken _ _ _ (hs.lt_count_of_findIdx? (List.take_prefix ..) hwin)
    | none =>
      have hwin' := hwin
      rw [← hv.contents] at hwin'
      cases hpol : s.cfg.oversize with
      | keep =>
        rw [hs.rbPopUntilTerm_keep hpol hwin, hs'.rbPopUntilTerm_keep (hv.cfg ▸ hpol) hwin']
        exact (hv.respond ..).next
      | drop =>
        rw [hs.rbPopUntilTerm_drop hpol hwin, hs'.rbPopUntilTerm_drop (hv.cfg ▸ hpol) hwin',
          hv.contents]
        cases hend : s.contents.findIdx? (isTerm · s.eom) with
        | none => exact (hv.respond ..).next
        | some p => exact taken _ _ _ (hs.lt_count_of_findIdx? List.prefix_rfl hend)
  · exact (hv.respond ..).next

theorem execPut_sameNext (hv : SameView s s') (b : Byte) :
    SameNext (execPut b s) (execPut b s') := by
  rw [execPut, execPut, hv.active, hv.txFree]
  split
  · split
    · exact (hv.respondWith ..).next
    · exact (hv.emit _).next
  · exact (hv.respond ..).next

theorem execGet1_sameNext (hv : SameView s s') (f : Bool) :
    SameNext (execGet1 f s) (execGet1 f s') := by
  rw [execGet1, execGet1, hv.active, hv.rxRdy]
  split
  · split
    case isTrue hrx => rw [hv.rxByte hrx]; exact (hv.readRx.respondWith ..).next
    case isFalse =>
      split
      · exact (hv.emit _).next
      · exact (hv.respond ..).next
  · exact (hv.respond ..).next

theorem execSeteom_sameNext (hv : SameView s s') (b : Byte) :
    SameNext (execSeteom b s) (execSeteom b s') := by
  rw [execSeteom, execSeteom, hv.active]
  split
  · exact (hv.respond ..).next
  · refine (SameView.respond ?_ ..).next
    exact { hv with active := rfl, eom := rfl }

theorem execSetfrm_sameNext (hv : SameView s s') (f : Bool) :
    SameNext (execSetfrm f s) (execSetfrm f s') := by
  rw [execSetfrm, execSetfrm, hv.active]
  split
  · exact (hv.respond ..).next
  · refine (SameView.respond ?_ ..).next
    exact { hv with active := rfl, frmEn := rfl }

/-- The status registers show the view only: none shows an index (R40). -/
theorem SameView.readReg (hv : SameView s s') (hcount : s'.count = s.count) (r : Nat) :
    s'.readReg r = s.readReg r := by
  match r with
  | 0 => simp [State.readReg, State.statusReg, State.isEmpty, State.isFull, State.msgAvl, hcount,
      hv.cfg, hv.frmEn, hv.msgs, hv.active]
  | 1 => simp [State.readReg, State.countReg, hcount]
  | 2 => simp [State.readReg, State.msgsReg, hv.cfg, hv.msgs]
  | 3 => simp [State.readReg, State.eomReg, hv.eom]
  | 4 => simp [State.readReg, State.capReg, hv.cfg]
  | _ + 5 => rfl

theorem execRdreg_sameNext (hs : RingInv s) (hs' : RingInv s') (hv : SameView s s') (r : Nat) :
    SameNext (execRdreg r s) (execRdreg r s') := by
  rw [execRdreg, execRdreg, hv.readReg (hv.count hs hs')]
  cases s.readReg r with
  | some v => exact (hv.respond ..).next
  | none => exact (hv.respond ..).next

theorem SameView.evtReq (hv : SameView s s') : s'.evtReq = s.evtReq := by
  simp [State.evtReq, State.ldRxie, hv.rxRdy, hv.active]

theorem execRxevt_sameNext (hs : RingInv s) (hs' : RingInv s') (hv : SameView s s') :
    SameNext (execRxevt s) (execRxevt s') := by
  have hcount := hv.count hs hs'
  rw [execRxevt, execRxevt, hv.evtReq]
  split
  case isTrue hreq =>
    obtain ⟨hrx, _⟩ := (evtReq_iff s).1 hreq
    rw [serviceReceiveEvent, serviceReceiveEvent, hv.rxByte hrx]
    by_cases hfull : s.count = s.cfg.capacity
    · have hfull' : s'.count = s'.cfg.capacity := by rw [hcount, hv.cfg, hfull]
      rw [rbPush_full (s := s.readRx) _ hfull, rbPush_full (s := s'.readRx) _ hfull']
      exact (hv.readRx.emit _).next
    · have hroom' : s'.count ≠ s'.cfg.capacity := by rwa [hcount, hv.cfg]
      have hlt : s.count < s.cfg.capacity := hs.count_le.lt_of_ne hfull
      rw [rbPush_room (s := s.readRx) _ hfull hs.tail_lt,
        rbPush_room (s := s'.readRx) _ hroom' hs'.tail_lt]
      exact (((hv.readRx.pushed hs.readRx hs'.readRx _ hlt).fsNoteByte _).emit _).next
  case isFalse => exact (hv.emit _).next

/-- Every operation, in two states with the invariant that look alike. -/
theorem exec_sameNext (hs : RingInv s) (hs' : RingInv s') (hv : SameView s s') (i : Instr) :
    SameNext (exec i s) (exec i s') := by
  cases i with
  | resume => exact execResume_sameNext hv
  | suspend => exact execSuspend_sameNext hv
  | clear => exact execClear_sameNext hv
  | pop1 => exact execPop1_sameNext hs hs' hv
  | get n => exact execGet_sameNext hs hs' hv n
  | getmsg n => exact execGetmsg_sameNext hs hs' hv n
  | put b => exact execPut_sameNext hv b
  | get1 f => exact execGet1_sameNext hv f
  | seteom b => exact execSeteom_sameNext hv b
  | setfrm f => exact execSetfrm_sameNext hv f
  | rdreg r => exact execRdreg_sameNext hs hs' hv r
  | rxevt => exact execRxevt_sameNext hs hs' hv

/-- The consumer offers the same word to both, or none. -/
theorem SameView.takeCommand (hv : SameView s s') :
    (s.takeCommand = none ∧ s'.takeCommand = none) ∨
      ∃ w u u', s.takeCommand = some (w, u) ∧ s'.takeCommand = some (w, u') ∧ SameView u u' := by
  unfold State.takeCommand
  rw [hv.held, hv.cmds]
  cases s.held with
  | some w => exact .inr ⟨w, s, s', rfl, rfl, hv⟩
  | none =>
    cases s.cmds with
    | nil => exact .inl ⟨rfl, rfl⟩
    | cons w ws => exact .inr ⟨w, _, _, rfl, rfl, { hv with held := rfl, cmds := rfl }⟩

theorem consumerTurn_sameNext (hs : RingInv s) (hs' : RingInv s') (hv : SameView s s') :
    SameNext (consumerTurn s) (consumerTurn s') := by
  unfold consumerTurn
  rcases hv.takeCommand with ⟨hnone, hnone'⟩ | ⟨w, u, u', htake, htake', hu⟩
  · rw [hnone, hnone']
    exact (hv.emit _).next
  · rw [htake, htake']
    cases hdec : decode (.cmd w) with
    | ok i =>
      simp only [hdec]
      exact exec_sameNext ((takeCommand_same htake).inv hs) ((takeCommand_same htake').inv hs') hu i
    | error e =>
      simp only [hdec]
      exact (hu.respond ..).next

theorem producerTurn_sameNext (hs : RingInv s) (hs' : RingInv s') (hv : SameView s s') :
    SameNext (producerTurn s) (producerTurn s') := by
  rw [producerTurn, producerTurn, decode_eventWord, decode_eventWord, hv.rxRdy]
  cases s.rxRdy with
  | true => exact exec_sameNext hs hs' hv .rxevt
  | false => exact (hv.emit _).next

/-- An overrun of a waiting byte draws the same free value in both (42_receive_source.md R143). -/
theorem SameView.overrun (hv : SameView s s') (hrx : s.rxRdy = true) (b : Byte) :
    SameView (s.overrun b) (s'.overrun b) := by
  have hpol' : s'.cfg.ldOverrun = s.cfg.ldOverrun := congrArg _ hv.cfg
  cases hpol : s.cfg.ldOverrun with
  | newByteLost => simpa only [State.overrun, hpol', hpol] using hv
  | newByteReplaces =>
    simp only [State.overrun, hpol', hpol]
    exact { hv with rxByte := fun _ => rfl }
  | either =>
    simp only [State.overrun, hpol', hpol]
    exact { hv with
      rxByte := fun _ => by rw [hv.draws, hv.rxByte hrx]
      draws := congrArg (· + 1) hv.draws }

theorem SameView.arrive (hv : SameView s s') (b : Byte) : SameView (s.arrive b) (s'.arrive b) := by
  rw [State.arrive, State.arrive, hv.active, hv.rxRdy]
  split
  · split
    case isTrue hrx => exact (hv.overrun hrx b).emit _
    case isFalse => exact { hv with active := rfl, rxRdy := rfl, rxByte := fun _ => rfl, out := rfl }
  · exact hv.emit _

theorem SameView.lineTxFree (hv : SameView s s') (v : Bool) :
    SameView (s.lineTxFree v) (s'.lineTxFree v) := { hv with txFree := rfl, out := rfl }

theorem step_sameNext (hs : RingInv s) (hs' : RingInv s') (hv : SameView s s') :
    SameNext (step s) (step s') := by
  cases hturns : s.turns with
  | nil =>
    rw [step_nil hturns, step_nil (hv.turns.trans hturns), unscheduledTurn, unscheduledTurn,
      hv.evtReq]
    split
    · exact producerTurn_sameNext hs hs' hv
    · exact consumerTurn_sameNext hs hs' hv
  | cons turn ts =>
    have hturns' := hv.turns.trans hturns
    have hi := (SameBlock.turns s ts).inv hs
    have hi' := (SameBlock.turns s' ts).inv hs'
    have hrest := hv.with_turns ts
    cases turn with
    | consumer =>
      rw [step_consumer hturns, step_consumer hturns']
      exact consumerTurn_sameNext hi hi' hrest
    | producer =>
      rw [step_producer hturns, step_producer hturns']
      exact producerTurn_sameNext hi hi' hrest
    | arrive b =>
      rw [step_arrive hturns, step_arrive hturns']
      exact (hrest.arrive b).next
    | txFree v =>
      rw [step_txFree hturns, step_txFree hturns']
      exact (hrest.lineTxFree v).next

/-- Settles O44: the agent whose turn it is does the same in both states. -/
theorem abstractContentDecidesBehaviour : Obligations.AbstractContentDecidesBehaviour :=
  fun _ _ => step_sameNext

/-! ### Every state of every execution (R26, R41) -/

/-- With the invariant a step answers a next state: the case `s' = s` of `step_sameNext`. -/
theorem RingInv.step_next (hi : RingInv s) : ∃ t, step s = .next t := by
  obtain ⟨t, _, ht, _, _⟩ := step_sameNext hi hi (.refl s)
  exact ⟨t, ht⟩

/-- With the invariant no run stops, and each ends in a state with the invariant. -/
theorem RingInv.runFor_next (n : Nat) (hi : RingInv s) :
    ∃ t, runFor n s = .next t ∧ RingInv t := by
  induction n generalizing s with
  | zero => exact ⟨s, rfl, hi⟩
  | succ n ih =>
    obtain ⟨u, hu⟩ := hi.step_next
    rw [runFor_of_next n hu]
    exact ih (stepKeepsInvariant s u hi hu)

/-- Settles O34: the invariant at the end of the run, with `add_mod` read as `%` (R16). -/
theorem reachableRanges : Obligations.ReachableRanges := by
  intro cfg cmds turns n
  have hreset := (resetFor_same cfg cmds turns).inv (resetMeetsInvariant cfg)
  obtain ⟨t, hrun, hi⟩ := hreset.runFor_next n
  obtain rfl : t.cfg = cfg := configurationIsFixed n _ t hrun
  refine ⟨t, hrun, rfl, hi.count_le, hi.head_lt, hi.tail_lt, ?_, hi.msgs_le, fun hs => ?_⟩
  · rw [hi.tail_eq, addMod_eq_mod hi.head_lt hi.count_le]
  · obtain ⟨hcount, hmsgs, _⟩ := hi.suspended hs
    refine ⟨hcount, hmsgs, ?_⟩
    rw [hi.tail_eq, hcount, addMod_zero hi.head_lt]

end

end Sys2Proof.Machine

/-! PROOFS. The statements of 20_memory.md: no step faults (R54), the FIFO law under either oversize
policy (R58), and the message boundary law (R59). -/

namespace Sys2Proof.Machine

section
variable {s t u : State}

/-! ### No access outside the ring (R54) -/

/-- Settles O33, by `RingInv.step_next`: the slots an operation reads are occupied, and the one
it writes is in the ring. -/
theorem stepNeverStops : Obligations.StepNeverStops := fun _ hi => hi.step_next

/-! ### The message boundary law (R59)

GETMSG scans the slots for the terminator and then copies the same slots, so what it copies ends
where the scan ended. No invariant is needed. -/

/-- A copy that answers has read its first slot. -/
theorem readRun_succ {i k : Nat} {d : List Byte} (h : readRun s i (k + 1) = .ok d) :
    ∃ b bs, readQ s i = .ok b ∧ readRun s (i + 1) k = .ok bs ∧ d = b :: bs := by
  rw [readRun] at h
  split at h
  · cases h
  · rename_i b hb
    split at h <;> cases h
    rename_i bs hbs
    exact ⟨b, bs, hb, hbs, rfl⟩

/-- A scan finds the terminator in its first slot, or passes over another byte and goes on. -/
theorem scanTerm_succ {term : Byte} {i n p : Nat} (h : scanTerm s term i (n + 1) = .ok (some p)) :
    ∃ b, readQ s i = .ok b ∧
      (b = term ∧ p = i ∨ b ≠ term ∧ scanTerm s term (i + 1) n = .ok (some p)) := by
  rw [scanTerm] at h
  split at h
  · cases h
  · rename_i b hb
    refine ⟨b, hb, ?_⟩
    split at h
    case isTrue ht => cases h; exact .inl ⟨by simpa [isTerm] using ht, rfl⟩
    case isFalse ht => exact .inr ⟨by simpa [isTerm] using ht, h⟩

/-- What is copied up to the place `i + k` where the scan stopped ends with the terminator and holds
no other. -/
theorem readRun_of_scanTerm {term : Byte} {n i k : Nat} {d : List Byte}
    (hscan : scanTerm s term i n = .ok (some (i + k))) (hread : readRun s i (k + 1) = .ok d) :
    ∃ q, d = q ++ [term] ∧ term ∉ q := by
  induction n generalizing i k d with
  | zero => simp [scanTerm] at hscan
  | succ n ih =>
    obtain ⟨b, bs, hb, hbs, rfl⟩ := readRun_succ hread
    obtain ⟨b', hb', hcase⟩ := scanTerm_succ hscan
    obtain rfl : b' = b := by rw [hb] at hb'; cases hb'; rfl
    rcases hcase with ⟨rfl, hk⟩ | ⟨hne, hrest⟩
    · obtain rfl : k = 0 := by omega
      cases hbs
      exact ⟨[], rfl, List.not_mem_nil⟩
    · obtain ⟨hpast, _⟩ := scanTerm_bounds hrest
      obtain ⟨j, rfl⟩ : ∃ j, k = j + 1 := ⟨k - 1, by omega⟩
      have hplace : i + (j + 1) = i + 1 + j := by omega
      rw [hplace] at hrest
      obtain ⟨q, rfl, hq⟩ := ih hrest hbs
      exact ⟨b' :: q, rfl, by simp [hq, hne.symm]⟩

/-- Settles O43: only the found branch of GETMSG drives data, and `readRun_of_scanTerm` says what. -/
theorem messageBoundaryLaw : Obligations.MessageBoundaryLaw := by
  intro s t n h
  rcases execGetmsg_cases h with
    ⟨_, rfl⟩ | ⟨p, d, _, hfound, hread, rfl⟩ | ⟨_, _, _, _, _, rfl⟩ | ⟨_, _, rfl⟩
  · exact .inl rfl
  · exact .inr (readRun_of_scanTerm ((Nat.zero_add p).symm ▸ hfound) hread)
  · exact .inl rfl
  · exact .inl rfl

/-! ### The FIFO law (R58)

The bytes of a step are accounted for by `Flow`. An operation's bytes are `deliveredBy` and
`acceptedBy`, which `delivered_of_next` and `accepted_of_next` tie to the step's. -/

/-- `Flow s inp out t`: the content of `s` followed by the bytes `inp` is the bytes `out`, then bytes
dropped, then the content of `t`. Only the policy DROP drops any (40_ring_buffer.md R104). -/
def Flow (s : State) (inp out : List Byte) (t : State) : Prop :=
  ∃ dropped, s.contents ++ inp = out ++ dropped ++ t.contents ∧
    (s.cfg.oversize = .keep → dropped = [])

/-- A flow that drops nothing. -/
theorem Flow.of_eq {inp out : List Byte} (h : s.contents ++ inp = out ++ t.contents) :
    Flow s inp out t := ⟨[], by simpa using h, fun _ => rfl⟩

/-- Nothing moved. -/
theorem Flow.of_contents_eq (h : t.contents = s.contents) : Flow s [] [] t :=
  .of_eq (by simp [h])

/-- The flow of a removal of the `k` oldest bytes, all returned. -/
theorem RingInv.flow_pop (hi : RingInv s) {k : Nat} (hk : k ≤ s.count) :
    Flow s [] (s.contents.take k) (s.dropOldest k) :=
  .of_eq (by rw [hi.contents_dropOldest hk, List.take_append_drop, List.append_nil])

/-- The flow of a removal of the `k` oldest bytes, none returned. -/
theorem RingInv.flow_drop (hi : RingInv s) {k : Nat} (hk : k ≤ s.count)
    (hpol : s.cfg.oversize = .drop) : Flow s [] [] (s.dropOldest k) :=
  ⟨s.contents.take k,
    by rw [hi.contents_dropOldest hk, List.nil_append, List.take_append_drop, List.append_nil],
    fun hkeep => by rw [hpol] at hkeep; cases hkeep⟩

theorem Flow.sublist {inp out : List Byte} (h : Flow s inp out t) :
    (out ++ t.contents).Sublist (s.contents ++ inp) := by
  obtain ⟨dropped, heq, _⟩ := h
  rw [heq]
  exact (List.sublist_append_left out dropped).append_right t.contents

/-- The ring bytes that `i` returns with the strobes `o`. -/
def deliveredBy (i : Instr) (o : Outputs) : List Byte :=
  match i with
  | .pop1 =>
    match o.rsp with
    | some r => if rspStatus r = 0x00#8 then [(rspVal r).extractLsb' 0 8] else []
    | none => []
  | .get _ | .getmsg _ => o.dat
  | _ => []

/-- The byte that `i`, run in `s`, pushes with the strobes `o`. -/
def acceptedBy (i : Instr) (s : State) (o : Outputs) : List Byte :=
  match i with
  | .rxevt => if s.active && !o.pushFail then [s.rxByte] else []
  | _ => []

theorem delivered_of_next {i : Instr} (h : s.nextInstr = some i) (t : State) :
    delivered s t = deliveredBy i t.out := by
  rw [delivered, h]; cases i <;> rfl

theorem accepted_of_next {i : Instr} (h : s.nextInstr = some i) (t : State) :
    accepted s t = acceptedBy i s t.out := by
  rw [accepted, h]; cases i <;> rfl

theorem delivered_of_none (h : s.nextInstr = none) (t : State) : delivered s t = [] := by
  rw [delivered, h]

theorem accepted_of_none (h : s.nextInstr = none) (t : State) : accepted s t = [] := by
  rw [accepted, h]

/-- The bytes of POP1's answer: the byte in `VAL` with the status OK, none with another status. -/
theorem deliveredBy_pop1_respond (st : Status) (v : Word16) (s : State) :
    deliveredBy .pop1 (s.respond st v []).out =
      if st = .ok then [v.extractLsb' 0 8] else [] := by
  have hout : (s.respond st v []).out.rsp = some (rspWord st v) := rfl
  rw [deliveredBy, hout]
  cases st <;> simp [statusCode]

/-- A byte survives its way through `VAL`. -/
theorem extractLsb'_setWidth_byte (b : Byte) :
    (b.setWidth 16 : Word16).extractLsb' 0 8 = b := by
  apply BitVec.eq_of_toNat_eq
  have hlt : b.toNat < 256 := b.isLt
  simpa [BitVec.extractLsb'_toNat] using hlt

theorem execPop1_flow (hi : RingInv s) (h : execPop1 s = .next t) :
    Flow s [] (deliveredBy .pop1 t.out) t := by
  rw [execPop1, hi.rbPopOne_eq] at h
  split at h
  · cases hq : s.contents with
    | nil =>
      rw [hq] at h; cases h
      rw [deliveredBy_pop1_respond]
      exact .of_contents_eq rfl
    | cons b q =>
      rw [hq] at h; cases h
      have hk : 1 ≤ s.count := by rw [← hi.contents_length, hq]; simp
      have hflow := hi.flow_pop hk
      rw [hq] at hflow
      rw [deliveredBy_pop1_respond, if_pos rfl, extractLsb'_setWidth_byte]
      exact hflow
  · cases h
    rw [deliveredBy_pop1_respond]
    exact .of_contents_eq rfl

theorem execGet_flow {n : Nat} (hi : RingInv s) (h : execGet n s = .next t) :
    Flow s [] t.out.dat t := by
  rcases execGet_cases h with ⟨_, rfl⟩ | ⟨d, _, hread, rfl⟩
  · exact .of_contents_eq rfl
  · have hk : min n s.count ≤ s.count := Nat.min_le_right ..
    rw [hi.readRun_eq _ 0 (by omega)] at hread
    cases hread
    exact hi.flow_pop hk

theorem execGetmsg_flow {n : Nat} (hi : RingInv s) (h : execGetmsg n s = .next t) :
    Flow s [] t.out.dat t := by
  rcases execGetmsg_cases h with
    ⟨_, rfl⟩ | ⟨p, d, _, hfound, hread, rfl⟩ | ⟨p, _, hpol, _, hpast, rfl⟩ | ⟨_, _, rfl⟩
  · exact .of_contents_eq rfl
  · obtain ⟨_, hp⟩ := scanTerm_bounds hfound
    rw [hi.readRun_eq _ 0 (by omega)] at hread
    cases hread
    exact hi.flow_pop (k := p + 1) (by omega)
  · obtain ⟨_, hp⟩ := scanTerm_bounds hpast
    exact hi.flow_drop (k := p + 1) (by omega) hpol
  · exact .of_contents_eq rfl

/-- RXEVT with a byte waiting accepts it exactly when it stores it. -/
theorem execRxevt_flow (hi : RingInv s) (hrx : s.rxRdy = true) (h : execRxevt s = .next t) :
    Flow s (acceptedBy .rxevt s t.out) [] t := by
  have hreq := hi.evtReq hrx
  obtain ⟨_, ha⟩ := (evtReq_iff s).1 hreq
  rcases execRxevt_cases h with ⟨hno, _⟩ | ⟨_, _, rfl⟩ | ⟨_, hroom, _, rfl⟩
  · rw [hreq] at hno; cases hno
  · have hacc : ∀ v : State, acceptedBy .rxevt s
        (v.emit { rxRd := true, pushFail := true }).out = [] := by simp [acceptedBy]
    rw [hacc]
    exact .of_contents_eq rfl
  · have hacc : ∀ v : State, acceptedBy .rxevt s
        (v.emit { rxRd := true }).out = [s.rxByte] := by simp [acceptedBy, ha]
    have hcontents : ((s.readRx.pushed s.rxByte).fsNoteByte s.rxByte).contents
        = s.contents ++ [s.rxByte] := by
      rw [State.fsNoteByte_eq]
      exact hi.readRx.contents_pushed _ (hi.count_le.lt_of_ne hroom)
    rw [hacc]
    exact .of_eq hcontents.symm

/-- The operations that clear the ring (43_channel.md R155 to R157). -/
def clearsRing : Instr → Bool
  | .resume | .suspend | .clear => true
  | _ => false

/-- The operations that take bytes out of the ring, put one in, or clear it. -/
def touchesRing : Instr → Bool
  | .pop1 | .get _ | .getmsg _ | .rxevt => true
  | i => clearsRing i

theorem nextClears_of_next {i : Instr} (h : s.nextInstr = some i) : s.nextClears = clearsRing i := by
  rw [State.nextClears, h]; cases i <;> rfl

theorem OpEffect.contents {i : Instr} (he : OpEffect s i u) (hi : touchesRing i = false) :
    u.contents = s.contents := by
  cases he with
  | resume | suspend | clear | pop1 | get | getmsg | rejected | received => cases hi
  | get1 | seteom | setfrm | unchanged => rfl

theorem exec_contents {i : Instr} (hi : touchesRing i = false) (h : exec i s = .next t) :
    t.contents = s.contents := by
  obtain ⟨u, heffect, p, o, rfl⟩ := exec_effect h
  exact heffect.contents hi

/-- The flow of every operation but the clearing ones. -/
theorem exec_flow {i : Instr} (hi : RingInv s) (hclear : clearsRing i = false)
    (hrx : i = .rxevt → s.rxRdy = true) (h : exec i s = .next t) :
    Flow s (acceptedBy i s t.out) (deliveredBy i t.out) t := by
  cases i with
  | resume | suspend | clear => cases hclear
  | pop1 => exact execPop1_flow hi h
  | get n => exact execGet_flow hi h
  | getmsg n => exact execGetmsg_flow hi h
  | rxevt => exact execRxevt_flow hi (hrx rfl) h
  | put | get1 | seteom | setfrm | rdreg => exact .of_contents_eq (exec_contents rfl h)

theorem SameBlock.flow {inp out : List Byte} (h : SameBlock s u) (hf : Flow u inp out t) :
    Flow s inp out t := by
  rwa [Flow, h.contents, h.cfg] at hf

theorem SameBlock.acceptedBy (h : SameBlock s u) (i : Instr) (o : Outputs) :
    acceptedBy i u o = acceptedBy i s o := by
  cases i <;> simp [Machine.acceptedBy, h.active, h.rxByte]

/-- THE FLOW OF A STEP that does not clear the ring: what was there and what was accepted is what was
delivered, what was dropped and what is there, in this order. -/
theorem step_flow (hi : RingInv s) (hclear : s.nextClears = false) (h : step s = .next t) :
    Flow s (accepted s t) (delivered s t) t := by
  rcases step_cases s with ⟨i, s0, hnext, hsame, hexec⟩ | ⟨hnone, v, hv, hquiet⟩
  · rw [delivered_of_next hnext, accepted_of_next hnext, ← hsame.acceptedBy]
    refine hsame.flow (exec_flow (hsame.inv hi) ?_ ?_ (hexec ▸ h))
    · rw [← nextClears_of_next hnext, hclear]
    · rintro rfl
      exact hsame.rxRdy.trans (rxRdy_of_nextInstr hnext)
  · obtain rfl : v = t := by simpa [hv] using h
    rw [delivered_of_none hnone, accepted_of_none hnone]
    exact .of_contents_eq hquiet.contents

/-! One equation per function of a run whose first step answers. -/

theorem runDelivered_of_next (n : Nat) (h : step s = .next t) :
    runDelivered (n + 1) s = delivered s t ++ runDelivered n t := by rw [runDelivered, h]

theorem runAccepted_of_next (n : Nat) (h : step s = .next t) :
    runAccepted (n + 1) s = accepted s t ++ runAccepted n t := by rw [runAccepted, h]

theorem runWithoutClear_of_next (n : Nat) (h : step s = .next t) :
    runWithoutClear (n + 1) s = true ↔ s.nextClears = false ∧ runWithoutClear n t = true := by
  rw [runWithoutClear, h]; simp

/-- The order of the bytes over a run without a clear: the first step's flow, then that of the
rest. -/
theorem RingInv.run_sublist (n : Nat) (hi : RingInv s) (hclear : runWithoutClear n s = true)
    (hrun : runFor n s = .next t) :
    List.Sublist (runDelivered n s ++ t.contents) (s.contents ++ runAccepted n s) := by
  induction n generalizing s with
  | zero =>
    cases hrun
    simp [runDelivered, runAccepted]
  | succ n ih =>
    obtain ⟨u, hu⟩ := hi.step_next
    obtain ⟨hfirst, hrest⟩ := (runWithoutClear_of_next n hu).1 hclear
    have hhead := (step_flow hi hfirst hu).sublist
    have htail := ih (stepKeepsInvariant s u hi hu) hrest (runFor_of_next n hu ▸ hrun)
    rw [runDelivered_of_next n hu, runAccepted_of_next n hu]
    calc delivered s u ++ runDelivered n u ++ t.contents
      _ = delivered s u ++ (runDelivered n u ++ t.contents) := List.append_assoc ..
      List.Sublist _ (delivered s u ++ (u.contents ++ runAccepted n u)) := htail.append_left _
      _ = delivered s u ++ u.contents ++ runAccepted n u := (List.append_assoc ..).symm
      List.Sublist _ (s.contents ++ accepted s u ++ runAccepted n u) := hhead.append_right _
      _ = s.contents ++ (accepted s u ++ runAccepted n u) := List.append_assoc ..

/-- Settles O42: `RingInv.run_sublist`, which holds under either policy because every step's flow
does. -/
theorem fifoLawUnderDrop : Obligations.FifoLawUnderDrop :=
  fun n _ _ hi hclear hrun => hi.run_sublist n hclear hrun

end

end Sys2Proof.Machine

/-! PROOFS. The statements of 30_encoding.md: the command words and the event word (R76 to R78, R82 to
R85), the step as fetch, decode and execute (R88), what an operation drives at the ports (R79 to R81)
and the pins (R89). -/

namespace Sys2Proof.Machine

/-! ### The operand forms (R77, R84)

Reading an operand from `ARG` undoes writing it, and writing what was read leaves the used bits of
`ARG` and 0 elsewhere. -/

theorem argN16_n16Arg {n : Nat} (hn : n < 65536) : argN16 (n16Arg n) = n := by
  rw [argN16, n16Arg, BitVec.toNat_ofNat]
  exact Nat.mod_eq_of_lt hn

theorem n16Arg_argN16 (arg : Word16) : n16Arg (argN16 arg) = arg := by
  rw [n16Arg, argN16, BitVec.ofNat_toNat, BitVec.setWidth_eq]

theorem b8Arg_toNat (b : Byte) : (b8Arg b).toNat = b.toNat := by
  rw [b8Arg, ← setWidth_byte, BitVec.toNat_setWidth]
  have := b.isLt
  omega

theorem argB8_toNat (arg : Word16) : (argB8 arg).toNat = arg.toNat % 256 := by
  simp [argB8, BitVec.extractLsb'_toNat]

theorem argB8_b8Arg (b : Byte) : argB8 (b8Arg b) = b := by
  apply BitVec.eq_of_toNat_eq
  rw [argB8_toNat, b8Arg_toNat]
  exact Nat.mod_eq_of_lt b.isLt

theorem b8Arg_argB8 (arg : Word16) : b8Arg (argB8 arg) = arg &&& 0x00FF#16 := by
  apply BitVec.eq_of_toNat_eq
  rw [b8Arg_toNat, argB8_toNat, BitVec.toNat_and]
  exact (Nat.and_two_pow_sub_one_eq_mod arg.toNat 8).symm

theorem argF1_f1Arg (f : Bool) : argF1 (f1Arg f) = f := by
  cases f <;> decide

theorem f1Arg_toNat (f : Bool) : (f1Arg f).toNat = f.toNat := by
  cases f <;> decide

theorem f1Arg_argF1 (arg : Word16) : f1Arg (argF1 arg) = arg &&& 0x0001#16 := by
  apply BitVec.eq_of_toNat_eq
  rw [f1Arg_toNat, argF1, BitVec.getLsbD, Nat.testBit_zero, BitVec.toNat_and]
  have hbit : arg.toNat &&& (0x0001#16).toNat = arg.toNat % 2 := Nat.and_one_is_mod _
  rw [hbit]
  rcases Nat.mod_two_eq_zero_or_one arg.toNat with h | h <;> simp [h]

/-! ### The rows of the opcode table (R78) -/

/-- `OpcodeRow arg opc i`: the command `i` stands in the row of `opc`, with its operand taken from
`arg`. -/
inductive OpcodeRow (arg : Word16) : Nat → Instr → Prop
  | resume : OpcodeRow arg 0x01 .resume
  | suspend : OpcodeRow arg 0x02 .suspend
  | clear : OpcodeRow arg 0x03 .clear
  | pop1 : OpcodeRow arg 0x04 .pop1
  | get : OpcodeRow arg 0x05 (.get (argN16 arg))
  | getmsg : OpcodeRow arg 0x06 (.getmsg (argN16 arg))
  | put : OpcodeRow arg 0x07 (.put (argB8 arg))
  | get1 : OpcodeRow arg 0x08 (.get1 (argF1 arg))
  | seteom : OpcodeRow arg 0x09 (.seteom (argB8 arg))
  | setfrm : OpcodeRow arg 0x0A (.setfrm (argF1 arg))
  | rdreg : OpcodeRow arg 0x0B (.rdreg (argN16 arg))

theorem OpcodeRow.wf {arg : Word16} {opc : Nat} {i : Instr} (h : OpcodeRow arg opc i) :
    i.wf = true := by
  cases h with
  | get | getmsg | rdreg => exact decide_eq_true arg.isLt
  | _ => rfl

/-- The eleven rows are all the codes from 1 to 11. -/
theorem exists_opcodeRow (arg : Word16) {opc : Nat} (hlo : 1 ≤ opc) (hhi : opc ≤ 11) :
    ∃ i, OpcodeRow arg opc i := by
  interval_cases opc
  exacts [⟨_, .resume⟩, ⟨_, .suspend⟩, ⟨_, .clear⟩, ⟨_, .pop1⟩, ⟨_, .get⟩, ⟨_, .getmsg⟩, ⟨_, .put⟩,
    ⟨_, .get1⟩, ⟨_, .seteom⟩, ⟨_, .setfrm⟩, ⟨_, .rdreg⟩]

/-- A word whose `OPC` has a row decodes to the command of that row. -/
theorem decode_of_row {w : Word24} {opc : Nat} {i : Instr} (hopc : (cmdOpc w).toNat = opc)
    (hrow : OpcodeRow (cmdArg w) opc i) : decode (.cmd w) = .ok i := by
  rw [decode, decodeCmd, hopc]
  cases hrow <;> rfl

/-- A word whose `OPC` has no row is rejected with it (R83). -/
theorem decode_of_reserved {w : Word24} (h : (cmdOpc w).toNat = 0 ∨ 12 ≤ (cmdOpc w).toNat) :
    decode (.cmd w) = .error (.reservedOpcode (cmdOpc w).toNat) := by
  rw [decode, decodeCmd]
  split
  case h_12 => rfl
  all_goals omega

/-- WHAT A COMMAND WORD DECODES TO: the command of its row, and nothing else. -/
theorem decode_cmd_iff (w : Word24) (i : Instr) :
    decode (.cmd w) = .ok i ↔ OpcodeRow (cmdArg w) (cmdOpc w).toNat i := by
  refine ⟨fun h => ?_, decode_of_row rfl⟩
  by_cases hrow : 1 ≤ (cmdOpc w).toNat ∧ (cmdOpc w).toNat ≤ 11
  · obtain ⟨hlo, hhi⟩ := hrow
    obtain ⟨j, hj⟩ := exists_opcodeRow (cmdArg w) hlo hhi
    rw [decode_of_row rfl hj] at h
    cases h
    exact hj
  · rw [decode_of_reserved (by omega)] at h
    cases h

/-- The same for a word put together from its fields. -/
theorem decode_append {opc : BitVec 8} {arg : Word16} {i : Instr}
    (hrow : OpcodeRow arg opc.toNat i) : decode (.cmd (opc ++ arg)) = .ok i :=
  decode_of_row (congrArg BitVec.toNat (cmdOpc_append opc arg)) ((cmdArg_append opc arg).symm ▸ hrow)

/-- A command word is its two fields. -/
theorem cmdOpc_append_cmdArg (w : Word24) : cmdOpc w ++ cmdArg w = w := by
  apply BitVec.eq_of_toNat_eq
  rw [word24_toNat, cmdOpc_toNat, cmdArg_toNat]
  omega

/-! ### The encoder (R84) -/

/-- The encoder writes a well-formed command into the row it stands in. -/
theorem encode_row {i : Instr} (hwf : i.wf = true) (hi : i ≠ .rxevt) :
    ∃ opc arg, encode i = cmdWord opc arg ∧ OpcodeRow arg opc.toNat i := by
  have num {n : Nat} (hn : fitsArg n = true) : argN16 (n16Arg n) = n :=
    argN16_n16Arg (of_decide_eq_true hn)
  cases i with
  | resume => exact ⟨_, _, rfl, .resume⟩
  | suspend => exact ⟨_, _, rfl, .suspend⟩
  | clear => exact ⟨_, _, rfl, .clear⟩
  | pop1 => exact ⟨_, _, rfl, .pop1⟩
  | get n => exact ⟨_, _, rfl, congrArg Instr.get (num hwf) ▸ .get⟩
  | getmsg n => exact ⟨_, _, rfl, congrArg Instr.getmsg (num hwf) ▸ .getmsg⟩
  | put b => exact ⟨_, _, rfl, congrArg Instr.put (argB8_b8Arg b) ▸ .put⟩
  | get1 f => exact ⟨_, _, rfl, congrArg Instr.get1 (argF1_f1Arg f) ▸ .get1⟩
  | seteom b => exact ⟨_, _, rfl, congrArg Instr.seteom (argB8_b8Arg b) ▸ .seteom⟩
  | setfrm f => exact ⟨_, _, rfl, congrArg Instr.setfrm (argF1_f1Arg f) ▸ .setfrm⟩
  | rdreg r => exact ⟨_, _, rfl, congrArg Instr.rdreg (num hwf) ▸ .rdreg⟩
  | rxevt => exact absurd rfl hi

/-- Settles O1: `encode_row` puts a command into its row, and a row decodes to its command. -/
theorem decodeEncodeAgree : Obligations.DecodeEncodeAgree := by
  intro i hwf
  by_cases hi : i = .rxevt
  · subst hi; rfl
  · obtain ⟨opc, arg, hencode, hrow⟩ := encode_row hwf hi
    rw [hencode]
    exact decode_append hrow

/-- An encoded command as a number. -/
theorem cmdWord_eq_ofNat (opc : BitVec 8) (arg : Word16) :
    cmdWord opc arg = .cmd (BitVec.ofNat 24 (opc.toNat * 65536 + arg.toNat)) := by
  rw [cmdWord, ← word24_toNat, BitVec.ofNat_toNat, BitVec.setWidth_eq]

theorem n16Arg_toNat {n : Nat} (hn : n < 65536) : (n16Arg n).toNat = n := argN16_n16Arg hn

/-- Settles O2: the rows of `OpcodeRow` read `ARG`, `cmdWord_eq_ofNat` says what is written. -/
theorem argumentFormsOfEveryCommand : Obligations.ArgumentFormsOfEveryCommand := by
  refine ⟨fun arg => ?_, rfl, rfl, rfl, rfl, fun n hn => ?_, fun b => ?_, fun f => ?_⟩
  · exact ⟨decode_append .resume, decode_append .suspend, decode_append .clear,
      decode_append .pop1, decode_append .get, decode_append .getmsg, decode_append .put,
      decode_append .get1, decode_append .seteom, decode_append .setfrm, decode_append .rdreg⟩
  · simp only [encode, cmdWord_eq_ofNat, n16Arg_toNat (Nat.lt_succ_of_le hn)]
    exact ⟨rfl, rfl, rfl⟩
  · simp only [encode, cmdWord_eq_ofNat, b8Arg_toNat]
    exact ⟨rfl, rfl⟩
  · simp only [encode, cmdWord_eq_ofNat, f1Arg_toNat]
    exact ⟨rfl, rfl⟩

/-! ### Ignored bits (R84) -/

theorem cmdOpc_and (v w : Word24) : cmdOpc (v &&& w) = cmdOpc v &&& cmdOpc w :=
  BitVec.extractLsb'_and

theorem cmdArg_and (v w : Word24) : cmdArg (v &&& w) = cmdArg v &&& cmdArg w :=
  BitVec.extractLsb'_and

/-- The used bits of `ARG` (R77). -/
def argMask : Instr → Word16
  | .get _ | .getmsg _ | .rdreg _ => 0xFFFF#16
  | .put _ | .seteom _ => 0x00FF#16
  | .get1 _ | .setfrm _ => 0x0001#16
  | .resume | .suspend | .clear | .pop1 | .rxevt => 0x0000#16

/-- Every command uses all of `OPC`, and `argMask` of `ARG`. -/
theorem usedBits_eq {i : Instr} (hi : i ≠ .rxevt) : usedBits i = 0xFF#8 ++ argMask i := by
  have put_together (m : Word16) {w : Word24} (hw : w.toNat = 0xFF0000 + m.toNat) :
      w = 0xFF#8 ++ m := BitVec.eq_of_toNat_eq (hw.trans (word24_toNat 0xFF#8 m).symm)
  cases i with
  | resume | suspend | clear | pop1 => exact put_together 0x0000#16 rfl
  | get | getmsg | rdreg => exact put_together 0xFFFF#16 rfl
  | put | seteom => exact put_together 0x00FF#16 rfl
  | get1 | setfrm => exact put_together 0x0001#16 rfl
  | rxevt => exact absurd rfl hi

theorem OpcodeRow.ne_rxevt {arg : Word16} {opc : Nat} {i : Instr} (h : OpcodeRow arg opc i) :
    i ≠ .rxevt := by
  rintro rfl; cases h

theorem cmdOpc_and_usedBits {i : Instr} (hi : i ≠ .rxevt) (w : Word24) :
    cmdOpc (w &&& usedBits i) = cmdOpc w := by
  rw [cmdOpc_and, usedBits_eq hi, cmdOpc_append]
  exact BitVec.and_allOnes

theorem cmdArg_and_usedBits {i : Instr} (hi : i ≠ .rxevt) (w : Word24) :
    cmdArg (w &&& usedBits i) = cmdArg w &&& argMask i := by
  rw [cmdArg_and, usedBits_eq hi, cmdArg_append]

theorem and_ffff (arg : Word16) : arg &&& 0xFFFF#16 = arg := BitVec.and_allOnes

/-- The command of a row, encoded: the row's code and the used bits of `ARG`. -/
theorem OpcodeRow.encode_eq {arg : Word16} {opc : Nat} {i : Instr} (h : OpcodeRow arg opc i) :
    encode i = cmdWord (BitVec.ofNat 8 opc) (arg &&& argMask i) := by
  have row {opc : BitVec 8} {a b : Word16} (hab : a = b) : cmdWord opc a = cmdWord opc b :=
    congrArg _ hab
  cases h with
  | resume | suspend | clear | pop1 => exact row BitVec.and_zero.symm
  | get | getmsg | rdreg => exact row ((n16Arg_argN16 arg).trans (and_ffff arg).symm)
  | put | seteom => exact row (b8Arg_argB8 arg)
  | get1 | setfrm => exact row (f1Arg_argF1 arg)

theorem argB8_congr {a b : Word16} (h : a &&& 0x00FF#16 = b &&& 0x00FF#16) : argB8 a = argB8 b := by
  rw [← argB8_b8Arg (argB8 a), ← argB8_b8Arg (argB8 b), b8Arg_argB8, b8Arg_argB8, h]

theorem argF1_congr {a b : Word16} (h : a &&& 0x0001#16 = b &&& 0x0001#16) : argF1 a = argF1 b := by
  rw [← argF1_f1Arg (argF1 a), ← argF1_f1Arg (argF1 b), f1Arg_argF1, f1Arg_argF1, h]

/-- A row reads its operand from the used bits of `ARG` only. -/
theorem OpcodeRow.congr {a b : Word16} {opc : Nat} {i : Instr} (h : OpcodeRow a opc i)
    (hab : b &&& argMask i = a &&& argMask i) : OpcodeRow b opc i := by
  have full (hab : b &&& 0xFFFF#16 = a &&& 0xFFFF#16) : b = a := by
    rwa [and_ffff, and_ffff] at hab
  cases h with
  | resume => exact .resume
  | suspend => exact .suspend
  | clear => exact .clear
  | pop1 => exact .pop1
  | get => obtain rfl := full hab; exact .get
  | getmsg => obtain rfl := full hab; exact .getmsg
  | rdreg => obtain rfl := full hab; exact .rdreg
  | put => rw [← argB8_congr hab]; exact .put
  | seteom => rw [← argB8_congr hab]; exact .seteom
  | get1 => rw [← argF1_congr hab]; exact .get1
  | setfrm => rw [← argF1_congr hab]; exact .setfrm

/-- Settles O3: the two fields of a masked word are the whole `OPC` and the used bits of `ARG`, which
decide the row and its operand. -/
theorem ignoredBitsHaveNoEffect : Obligations.IgnoredBitsHaveNoEffect := by
  intro w i h
  have hrow := (decode_cmd_iff w i).1 h
  have hi := hrow.ne_rxevt
  refine ⟨?_, fun w' hw => (decode_cmd_iff w' i).2 ?_⟩
  · rw [hrow.encode_eq, BitVec.ofNat_toNat, BitVec.setWidth_eq, ← cmdArg_and_usedBits hi,
      ← cmdOpc_and_usedBits hi, cmdWord, cmdOpc_append_cmdArg]
  · have hopc : cmdOpc w' = cmdOpc w := by
      rw [← cmdOpc_and_usedBits hi w', hw, cmdOpc_and_usedBits hi]
    have harg : cmdArg w' &&& argMask i = cmdArg w &&& argMask i := by
      rw [← cmdArg_and_usedBits hi, hw, cmdArg_and_usedBits hi]
    rw [hopc]
    exact hrow.congr harg

/-! ### Every word decodes or is rejected (R83, R85) -/

/-- The event word says that a byte is pending by its top bit (R82). -/
theorem decode_evt (e : Word9) :
    decode (.evt e) = if 256 ≤ e.toNat then .ok .rxevt else .error .nothingPending := by
  have hbit : e.getLsbD 8 = decide (256 ≤ e.toNat) := BitVec.msb_eq_decide e
  rw [decode, decodeEvt, hbit]
  simp only [decide_eq_true_eq]

/-- Settles O4: the codes with a row are those from 1 to 11. -/
theorem decodingIsTotal : Obligations.DecodingIsTotal := by
  refine ⟨fun w => ?_, fun e => ⟨fun h => ?_, fun h => ?_⟩⟩
  · rw [← cmdOpc_toNat]
    refine ⟨fun ⟨hlo, hhi⟩ => ?_, decode_of_reserved⟩
    obtain ⟨i, hrow⟩ := exists_opcodeRow (cmdArg w) hlo hhi
    exact ⟨i, hrow.wf, decode_of_row rfl hrow⟩
  · rw [decode_evt, if_pos h]
  · rw [decode_evt, if_neg (Nat.not_le_of_lt h)]

/-- Settles O5: each word is evaluated. -/
theorem vectorWordsDecode : Obligations.VectorWordsDecode :=
  ⟨rfl, rfl, rfl, rfl, rfl, rfl, rfl, rfl, rfl, rfl, rfl, rfl⟩

/-! ### The step: fetch, decode, execute (R82, R83, R88) -/

section
variable {s t u : State} {w : Word24}

/-- A port that is busy is busy with its command. -/
theorem takeCommand_held (h : s.held = some w) : s.takeCommand = some (w, s) := by
  rw [State.takeCommand, h]

/-- A free port takes the next word offered. -/
theorem takeCommand_offered {ws : List Word24} (hfree : s.held = none) (hoffer : s.cmds = w :: ws) :
    s.takeCommand = some (w, { s with held := some w, cmds := ws }) := by
  rw [State.takeCommand, hfree, hoffer]

theorem consumerTurn_ok {i : Instr} (htake : s.takeCommand = some (w, u))
    (hdec : decode (.cmd w) = .ok i) : consumerTurn s = exec i u := by
  simp only [consumerTurn, htake, hdec]

theorem consumerTurn_error {e : DecodeError} (htake : s.takeCommand = some (w, u))
    (hdec : decode (.cmd w) = .error e) : consumerTurn s = .next u.answerIllegal := by
  simp only [consumerTurn, htake, hdec]

theorem producerTurn_pending (hrx : s.rxRdy = true) : producerTurn s = exec .rxevt s := by
  simp only [producerTurn, decode_eventWord, hrx, if_true]

/-- With no turn scheduled a requested event goes first (log 2). -/
theorem step_event (ht : s.turns = []) (hrx : s.rxRdy = true) (ha : s.active = true) :
    step s = exec .rxevt s := by
  have hreq : s.evtReq = true := (evtReq_iff s).2 ⟨hrx, ha⟩
  rw [step_nil ht, unscheduledTurn, if_pos hreq, producerTurn_pending hrx]

/-- With no turn scheduled and no event requested the consumer has the turn (log 2). -/
theorem step_no_event (ht : s.turns = []) (hno : s.rxRdy = false ∨ s.active = false) :
    step s = consumerTurn s := by
  have hreq : ¬ s.evtReq = true := by
    rw [evtReq_iff]
    rintro ⟨hrx, ha⟩
    rcases hno with h | h
    · rw [hrx] at h; cases h
    · rw [ha] at h; cases h
  rw [step_nil ht, unscheduledTurn, if_neg hreq]

/-- Settles O6: whose turn it is, then what that agent fetches. -/
theorem stepRunsDecodedInstruction : Obligations.StepRunsDecodedInstruction := by
  refine ⟨fun s ts w i ht hheld hdec => ?_, fun s ts w ws i ht hfree hoffer hdec => ?_,
    fun s ts ht hrx => ?_, fun s ht hrx ha => step_event ht hrx ha,
    fun s w i ht hno hheld hdec => ?_, fun s w ws i ht hno hfree hoffer hdec => ?_⟩
  · rw [step_consumer ht]
    exact consumerTurn_ok (takeCommand_held hheld) hdec
  · rw [step_consumer ht]
    exact consumerTurn_ok (takeCommand_offered hfree hoffer) hdec
  · rw [step_producer ht]
    exact producerTurn_pending hrx
  · rw [step_no_event ht hno]
    exact consumerTurn_ok (takeCommand_held hheld) hdec
  · rw [step_no_event ht hno]
    exact consumerTurn_ok (takeCommand_offered hfree hoffer) hdec

/-- The registers of R40 are numbered 0 to 4. -/
theorem readReg_reserved (s : State) {r : Nat} (hr : 5 ≤ r) : s.readReg r = none := by
  obtain ⟨k, rfl⟩ := Nat.exists_eq_add_of_le' hr
  rfl

/-- The answer ILLEGAL changes nothing but the port (R83). -/
theorem answerIllegal_eq (s : State) :
    s.answerIllegal = { s with held := none, out := { rsp := some 0x050000#24 } } := rfl

/-- Settles O7: a word with no row and a register with no number meet the same answer. -/
theorem reservedOpcodeAnsweredIllegal : Obligations.ReservedOpcodeAnsweredIllegal := by
  refine ⟨fun s ts w ws ht hfree hoffer hres => ?_, fun s r hr => ?_⟩
  · rw [← cmdOpc_toNat] at hres
    have htake := takeCommand_offered (s := { s with turns := ts }) hfree hoffer
    rw [step_consumer ht, consumerTurn_error htake (decode_of_reserved hres), answerIllegal_eq]
  · rw [exec, execRdreg, readReg_reserved s hr]
    exact congrArg _ (answerIllegal_eq s)

/-! ### What an operation drives at the ports (R79 to R81, R88) -/

/-- The statuses of an operation's row of the opcode table (R78, R80). -/
def statuses : Instr → List Status
  | .resume | .suspend | .clear => [.ok]
  | .pop1 | .get1 _ => [.ok, .nodata, .notactive]
  | .get _ | .put _ => [.ok, .notactive]
  | .getmsg _ => [.ok, .nomsg, .notactive]
  | .seteom _ | .setfrm _ => [.ok, .notsusp]
  | .rdreg _ => [.ok, .illegal]
  | .rxevt => []

/-- The command `i` is not enabled yet in `s` (log 15): PUT waits for the transmit register, a
blocking GET1 for a byte. -/
def Waits (i : Instr) (s : State) : Prop :=
  (∃ b, i = .put b) ∧ s.active = true ∧ s.txFree = false ∨
    i = .get1 true ∧ s.active = true ∧ s.rxRdy = false

/-- `Answer s i st v d`: in `s` the command `i` can answer the status `st` with `VAL` `v` and the
data `d`. -/
inductive Answer (s : State) (i : Instr) : Status → Word16 → List Byte → Prop
  | value (v : Word16) : .ok ∈ statuses i → Answer s i .ok v []
  | bare (st : Status) : st ∈ statuses i → Answer s i st 0#16 []
  | data (n : Nat) (d : List Byte) : i = .get n ∨ i = .getmsg n → d.length ≤ n →
      d.length ≤ s.count → Answer s i .ok (BitVec.ofNat 16 d.length) d

/-- `PortEffect s i t`: the operation `i`, run in `s`, ends in `t` with one response, with a wait, or,
as RXEVT, with neither. -/
inductive PortEffect (s : State) : Instr → State → Prop
  | answered {i : Instr} {st : Status} {v : Word16} {d : List Byte} (u : State) (o : Outputs) :
      Answer s i st v d → ¬ Waits i s → o.pushFail = false →
      PortEffect s i (u.respondWith o st v d)
  | waiting {i : Instr} : Waits i s → PortEffect s i (s.emit {})
  | event (u : State) (o : Outputs) : u.held = s.held → o.rsp = none → o.dat = [] →
      (o.pushFail = true ↔ s.evtReq = true ∧ s.count = s.cfg.capacity) →
      PortEffect s .rxevt (u.emit o)

/-- A copy of `k` slots has `k` bytes. -/
theorem readRun_length {i k : Nat} {d : List Byte} (h : readRun s i k = .ok d) : d.length = k := by
  induction k generalizing i d with
  | zero => cases h; rfl
  | succ k ih =>
    obtain ⟨b, bs, _, hbs, rfl⟩ := readRun_succ h
    rw [List.length_cons, ih hbs]

theorem execPop1_port (h : execPop1 s = .next t) : PortEffect s .pop1 t := by
  have hno : ¬ Waits .pop1 s := by simp [Waits]
  rcases execPop1_cases h with ⟨_, rfl⟩ | ⟨_, _, rfl⟩ | ⟨b, _, _, _, rfl⟩
  · exact .answered s {} (.bare _ (by decide)) hno rfl
  · exact .answered s {} (.bare _ (by decide)) hno rfl
  · exact .answered _ {} (.value _ (by decide)) hno rfl

theorem execGet_port {n : Nat} (h : execGet n s = .next t) : PortEffect s (.get n) t := by
  have hno : ¬ Waits (.get n) s := by simp [Waits]
  rcases execGet_cases h with ⟨_, rfl⟩ | ⟨d, _, hread, rfl⟩
  · exact .answered s {} (.bare _ (by simp [statuses])) hno rfl
  · have hlen := readRun_length hread
    rw [← hlen]
    exact .answered _ {} (.data n d (.inl rfl) (by omega) (by omega)) hno rfl

theorem execGetmsg_port {n : Nat} (h : execGetmsg n s = .next t) : PortEffect s (.getmsg n) t := by
  have hno : ¬ Waits (.getmsg n) s := by simp [Waits]
  have hnomsg : Answer s (.getmsg n) .nomsg 0#16 [] := .bare _ (by simp [statuses])
  rcases execGetmsg_cases h with
    ⟨_, rfl⟩ | ⟨p, d, _, hfound, hread, rfl⟩ | ⟨_, _, _, _, _, rfl⟩ | ⟨_, _, rfl⟩
  · exact .answered s {} (.bare _ (by simp [statuses])) hno rfl
  · have hlen := readRun_length hread
    obtain ⟨_, hp⟩ := scanTerm_bounds hfound
    exact .answered _ {} (.data n d (.inr rfl) (by omega) (by omega)) hno rfl
  · exact .answered _ {} hnomsg hno rfl
  · exact .answered s {} hnomsg hno rfl

theorem execPut_port {b : Byte} (h : execPut b s = .next t) : PortEffect s (.put b) t := by
  unfold execPut at h
  split at h
  case isTrue ha =>
    split at h <;> cases h
    case isTrue htx =>
      exact .answered s _ (.bare .ok (by simp [statuses])) (by simp [Waits, htx]) rfl
    case isFalse htx =>
      exact .waiting (.inl ⟨⟨b, rfl⟩, ha, by simpa using htx⟩)
  case isFalse ha =>
    cases h
    exact .answered s {} (.bare _ (by simp [statuses])) (by simp [Waits, ha]) rfl

theorem execGet1_port {f : Bool} (h : execGet1 f s = .next t) : PortEffect s (.get1 f) t := by
  unfold execGet1 at h
  split at h
  case isTrue ha =>
    split at h
    case isTrue hrx =>
      cases h
      exact .answered _ _ (.value _ (by simp [statuses])) (by simp [Waits, hrx]) rfl
    case isFalse hrx =>
      split at h <;> cases h
      case isTrue hf => exact .waiting (.inr ⟨by rw [hf], ha, by simpa using hrx⟩)
      case isFalse hf =>
        exact .answered s {} (.bare _ (by simp [statuses])) (by simp [Waits, hf]) rfl
  case isFalse ha =>
    cases h
    exact .answered s {} (.bare _ (by simp [statuses])) (by simp [Waits, ha]) rfl

theorem execSeteom_port {b : Byte} (h : execSeteom b s = .next t) : PortEffect s (.seteom b) t := by
  have hno : ¬ Waits (.seteom b) s := by simp [Waits]
  unfold execSeteom at h
  split at h <;> cases h <;> exact .answered _ {} (.bare _ (by simp [statuses])) hno rfl

theorem execSetfrm_port {f : Bool} (h : execSetfrm f s = .next t) : PortEffect s (.setfrm f) t := by
  have hno : ¬ Waits (.setfrm f) s := by simp [Waits]
  unfold execSetfrm at h
  split at h <;> cases h <;> exact .answered _ {} (.bare _ (by simp [statuses])) hno rfl

theorem execRdreg_port {r : Nat} (h : execRdreg r s = .next t) : PortEffect s (.rdreg r) t := by
  have hno : ¬ Waits (.rdreg r) s := by simp [Waits]
  unfold execRdreg at h
  split at h <;> cases h
  · exact .answered s {} (.value _ (by simp [statuses])) hno rfl
  · exact .answered s {} (.bare _ (by simp [statuses])) hno rfl

theorem execRxevt_port (h : execRxevt s = .next t) : PortEffect s .rxevt t := by
  rcases execRxevt_cases h with ⟨hreq, rfl⟩ | ⟨hreq, hfull, rfl⟩ | ⟨_, hroom, _, rfl⟩
  · exact .event s _ rfl rfl rfl (by simp [hreq])
  · exact .event s.readRx _ rfl rfl rfl (by simp [hreq, hfull])
  · exact .event _ _ (State.fsNoteByte_held ..) rfl rfl (by simp [hroom])

/-- WHAT AN OPERATION DRIVES AT THE PORTS. -/
theorem exec_port {i : Instr} (h : exec i s = .next t) : PortEffect s i t := by
  cases i with
  | resume | suspend | clear =>
    cases h; exact .answered _ _ (.bare .ok (by decide)) (by simp [Waits]) rfl
  | pop1 => exact execPop1_port h
  | get n => exact execGet_port h
  | getmsg n => exact execGetmsg_port h
  | put b => exact execPut_port h
  | get1 f => exact execGet1_port h
  | seteom b => exact execSeteom_port h
  | setfrm f => exact execSetfrm_port h
  | rdreg r => exact execRdreg_port h
  | rxevt => exact execRxevt_port h

theorem Answer.mem_statuses {i : Instr} {st : Status} {v : Word16} {d : List Byte}
    (h : Answer s i st v d) : st ∈ statuses i := by
  cases h with
  | value _ hmem | bare _ hmem => exact hmem
  | data n _ hi => rcases hi with rfl | rfl <;> simp [statuses]

/-- R79: a status that is not OK comes with `VAL` 0 and no data. -/
theorem Answer.bare_of_ne_ok {i : Instr} {st : Status} {v : Word16} {d : List Byte}
    (h : Answer s i st v d) (hst : st ≠ .ok) : v = 0#16 ∧ d = [] := by
  cases h with
  | value | data => exact absurd rfl hst
  | bare => exact ⟨rfl, rfl⟩

/-- RXEVT answers nothing. -/
theorem Answer.ne_rxevt {i : Instr} {st : Status} {v : Word16} {d : List Byte}
    (h : Answer s i st v d) : i ≠ .rxevt := by
  rintro rfl
  exact List.not_mem_nil h.mem_statuses

/-- RXEVT does not wait. -/
theorem Waits.ne_rxevt {i : Instr} (h : Waits i s) : i ≠ .rxevt := by
  rintro rfl
  simp [Waits] at h

/-- Settles O46: one case per form of `PortEffect`. -/
theorem oneResponsePerCommand : Obligations.OneResponsePerCommand := by
  intro i s t h
  cases exec_port h with
  | answered u o hans hno =>
    exact ⟨fun hi => absurd hi hans.ne_rxevt, fun _ hw => absurd hw hno, fun _ _ => ⟨rfl, rfl⟩⟩
  | waiting hw => exact ⟨fun _ => ⟨rfl, rfl⟩, fun _ _ => ⟨rfl, rfl⟩, fun _ hno => absurd hw hno⟩
  | event u o hheld hrsp =>
    exact ⟨fun _ => ⟨hrsp, hheld⟩, fun hi => absurd rfl hi, fun hi => absurd rfl hi⟩

/-- Settles O47: `Answer` gives the status, and its code is in the row. -/
theorem statusesOfEachCommand : Obligations.StatusesOfEachCommand := by
  intro i s t r h hrsp
  cases exec_port h with
  | waiting => cases hrsp
  | event u o _ hnone => rw [State.emit_out, hnone] at hrsp; cases hrsp
  | @answered _ st v d u o hans =>
    obtain rfl : rspWord st v = r := Option.some.inj hrsp
    rw [rspStatus_rspWord, rspVal_rspWord]
    refine ⟨fun hst => hans.bare_of_ne_ok fun hok => hst (congrArg statusCode hok), ?_⟩
    have hcode := List.mem_map_of_mem (f := statusCode) hans.mem_statuses
    cases i <;> exact hcode

/-! ### The data stream and the pins (R81, R89) -/

theorem exec_dat {i : Instr} (h : exec i s = .next t) (hdat : t.out.dat ≠ []) :
    ∃ n, (i = .get n ∨ i = .getmsg n) ∧
      t.out.rsp = some (0x00#8 ++ BitVec.ofNat 16 t.out.dat.length) ∧
      t.out.dat.length ≤ n ∧ t.out.dat.length ≤ s.count := by
  cases exec_port h with
  | waiting => exact absurd rfl hdat
  | event u o _ _ hnil => exact absurd hnil hdat
  | answered u o hans =>
    cases hans with
    | value | bare => exact absurd rfl hdat
    | data n d hi hn hcount => exact ⟨n, hi, rfl, hn, hcount⟩

/-- Settles O48: `exec_dat`, with the count bounded by the invariant. -/
theorem dataStreamBounds : Obligations.DataStreamBounds := by
  intro s t hi h hdat
  rcases step_cases s with ⟨i, s0, hnext, hsame, hexec⟩ | ⟨_, v, hv, hquiet⟩
  · obtain ⟨n, hget, hrsp, hn, hcount⟩ := exec_dat (hexec ▸ h) hdat
    rw [hsame.count] at hcount
    exact ⟨n, by rwa [hnext, Option.some_inj, Option.some_inj], hrsp, hn, hcount.trans hi.count_le⟩
  · obtain rfl : v = t := by simpa [hv] using h
    exact absurd hquiet.dat hdat

theorem exec_pushFail {i : Instr} (h : exec i s = .next t) :
    t.out.pushFail = true ↔ i = .rxevt ∧ s.evtReq = true ∧ s.count = s.cfg.capacity := by
  cases exec_port h with
  | answered u o hans _ hpush => simp [hpush, hans.ne_rxevt]
  | waiting hw => simp [hw.ne_rxevt]
  | event u o _ _ _ hpush => simpa using hpush

/-- Settles O49: with the invariant a step that runs RXEVT finds the event requested. -/
theorem pushFailMarksRejectedPush : Obligations.PushFailMarksRejectedPush := by
  refine ⟨fun s => ⟨decide_eq_true_iff, decide_eq_true_iff, decide_eq_true_iff⟩,
    fun s t hi h => ?_⟩
  rw [State.pushFailPin]
  rcases step_cases s with ⟨i, s0, hnext, hsame, hexec⟩ | ⟨hnone, v, hv, hquiet⟩
  · rw [exec_pushFail (hexec ▸ h), hsame.count, hsame.cfg, hnext, Option.some_inj]
    refine and_congr_right fun hrxevt => and_iff_right ?_
    subst hrxevt
    exact (hsame.inv hi).evtReq (hsame.rxRdy.trans (rxRdy_of_nextInstr hnext))
  · obtain rfl : v = t := by simpa [hv] using h
    simp [hquiet.pushFail, hnone]

end

end Sys2Proof.Machine

/-! PROOFS. The statements of 40_ring_buffer.md: the command POP1 (R106) and the FIFO law of whole
runs under the policy KEEP (R109). -/

namespace Sys2Proof.Machine

section
variable {s t : State}

/-! ### POP1 (R106)

One equation per case of the command, told on the abstract content. -/

theorem execPop1_suspended (ha : s.active = false) :
    execPop1 s = .next (s.respond .notactive 0#16 []) := by
  simp [execPop1, ha]

theorem RingInv.execPop1_empty (hi : RingInv s) (ha : s.active = true) (hq : s.contents = []) :
    execPop1 s = .next (s.respond .nodata 0#16 []) := by
  rw [execPop1, if_pos ha, hi.rbPopOne_eq, hq]
  rfl

theorem RingInv.execPop1_cons (hi : RingInv s) (ha : s.active = true) {b : Byte} {q : List Byte}
    (hq : s.contents = b :: q) :
    execPop1 s = .next ((s.dropOldest 1).respond .ok (0x00#8 ++ b) []) := by
  rw [execPop1, if_pos ha, hi.rbPopOne_eq, hq, ← setWidth_byte]
  rfl

/-- Answering at the port leaves the content. -/
theorem respond_contents (st : Status) (v : Word16) (d : List Byte) (s : State) :
    (s.respond st v d).contents = s.contents := contents_congr rfl rfl rfl rfl

/-- The removal of the oldest byte leaves the bytes behind it. -/
theorem RingInv.contents_dropOldest_one (hi : RingInv s) {b : Byte} {q : List Byte}
    (hq : s.contents = b :: q) : (s.dropOldest 1).contents = q := by
  have hk : 1 ≤ s.count := by rw [← hi.contents_length, hq]; simp
  rw [hi.contents_dropOldest hk, hq, List.drop_one, List.tail_cons]

/-- Settles O13: the three cases of POP1, and its row of the opcode table. -/
theorem pop1Result : Obligations.Pop1Result := by
  refine ⟨fun _ => decode_append .pop1, fun s hi => ⟨execPop1_suspended, hi.execPop1_empty, ?_⟩⟩
  intro b q ha hq
  exact ⟨_, hi.execPop1_cons ha hq, (respond_contents ..).trans (hi.contents_dropOldest_one hq), rfl⟩

/-! ### The FIFO law (R109) -/

/-- Under KEEP a flow drops nothing, so its bytes balance. -/
theorem Flow.eq_of_keep {inp out : List Byte} (h : Flow s inp out t)
    (hkeep : s.cfg.oversize = .keep) : s.contents ++ inp = out ++ t.contents := by
  obtain ⟨dropped, heq, hdropped⟩ := h
  rw [heq, hdropped hkeep, List.append_nil]

/-- The balance of the bytes over a run without a clear under KEEP: the first step's, then that of
the rest. -/
theorem RingInv.run_balance (n : Nat) (hi : RingInv s) (hkeep : s.cfg.oversize = .keep)
    (hclear : runWithoutClear n s = true) (hrun : runFor n s = .next t) :
    s.contents ++ runAccepted n s = runDelivered n s ++ t.contents := by
  induction n generalizing s with
  | zero =>
    cases hrun
    simp [runDelivered, runAccepted]
  | succ n ih =>
    obtain ⟨u, hu⟩ := hi.step_next
    obtain ⟨hfirst, hrest⟩ := (runWithoutClear_of_next n hu).1 hclear
    have hhead := (step_flow hi hfirst hu).eq_of_keep hkeep
    have htail := ih (stepKeepsInvariant s u hi hu) (step_cfg hu ▸ hkeep) hrest
      (runFor_of_next n hu ▸ hrun)
    rw [runDelivered_of_next n hu, runAccepted_of_next n hu]
    calc s.contents ++ (accepted s u ++ runAccepted n u)
      _ = s.contents ++ accepted s u ++ runAccepted n u := (List.append_assoc ..).symm
      _ = delivered s u ++ (u.contents ++ runAccepted n u) := by rw [hhead, List.append_assoc]
      _ = delivered s u ++ runDelivered n u ++ t.contents := by rw [htail, List.append_assoc]

/-- Settles O41: `RingInv.run_balance`; from an empty ring it says that the bytes accepted are the
bytes delivered and then those still stored. -/
theorem fifoLaw : Obligations.FifoLaw := by
  intro n s t hi hkeep hclear hrun
  have hbalance := hi.run_balance n hkeep hclear hrun
  refine ⟨hbalance, fun hempty => ⟨t.contents, ?_⟩⟩
  rw [← hbalance, hempty, List.nil_append]

end

end Sys2Proof.Machine

/-! PROOFS. The statements of 41_framing.md: the configuration commands SETEOM (R123) and SETFRM
(R124), and that `eom` and `frm_en` are frozen while Active (R126). -/

namespace Sys2Proof.Machine

section
variable {s t u : State}

/-! ### SETEOM and SETFRM (R123, R124)

One equation per case of each command. -/

theorem exec_seteom_active (b : Byte) (ha : s.active = true) :
    exec (.seteom b) s = .next (s.respond .notsusp 0#16 []) := by
  rw [exec, execSeteom, if_pos ha]

theorem exec_seteom_suspended (b : Byte) (ha : s.active = false) :
    exec (.seteom b) s = .next (({ s with eom := b } : State).respond .ok 0#16 []) := by
  rw [exec, execSeteom, if_neg (ne_true_of_eq_false ha)]

theorem exec_setfrm_active (f : Bool) (ha : s.active = true) :
    exec (.setfrm f) s = .next (s.respond .notsusp 0#16 []) := by
  rw [exec, execSetfrm, if_pos ha]

theorem exec_setfrm_suspended (f : Bool) (ha : s.active = false) :
    exec (.setfrm f) s = .next (({ s with frmEn := f } : State).respond .ok 0#16 []) := by
  rw [exec, execSetfrm, if_neg (ne_true_of_eq_false ha)]

/-- Settles O19: the two cases of SETEOM, and its row of the opcode table. -/
theorem seteomResult : Obligations.SeteomResult :=
  ⟨fun _ => decode_append .seteom, fun _ b => ⟨exec_seteom_active b, exec_seteom_suspended b⟩⟩

/-- Settles O20: the two cases of SETFRM, and its row of the opcode table. -/
theorem setfrmResult : Obligations.SetfrmResult :=
  ⟨fun _ => decode_append .setfrm, fun _ f => ⟨exec_setfrm_active f, exec_setfrm_suspended f⟩⟩

/-! ### Who writes the framing configuration (R126)

Both registers have one writer, which writes while Suspended only. -/

/-- An operation that changes `eom` is a SETEOM of the new value, run while Suspended. -/
theorem OpEffect.eom_cases {i : Instr} (he : OpEffect s i u) :
    u.eom = s.eom ∨ (s.active = false ∧ i = .seteom u.eom) := by
  cases he with
  | seteom b ha => exact .inr ⟨ha, rfl⟩
  | received => exact .inl (State.fsNoteByte_eom ..)
  | _ => exact .inl rfl

/-- An operation that changes `frm_en` is a SETFRM of the new value, run while Suspended. -/
theorem OpEffect.frmEn_cases {i : Instr} (he : OpEffect s i u) :
    u.frmEn = s.frmEn ∨ (s.active = false ∧ i = .setfrm u.frmEn) := by
  cases he with
  | setfrm f ha => exact .inr ⟨ha, rfl⟩
  | received => exact .inl (State.fsNoteByte_frmEn ..)
  | _ => exact .inl rfl

/-- The same of a step: what it fetches does not touch the block, and a quiet step keeps both. -/
theorem step_config_cases (h : step s = .next t) :
    (t.eom = s.eom ∨ (s.active = false ∧ s.nextInstr = some (.seteom t.eom))) ∧
      (t.frmEn = s.frmEn ∨ (s.active = false ∧ s.nextInstr = some (.setfrm t.frmEn))) := by
  rcases step_cases s with ⟨i, s0, hnext, hsame, hrun⟩ | ⟨_, v, hv, hquiet⟩
  · obtain ⟨u, heffect, p, o, rfl⟩ := exec_effect (hrun.symm.trans h)
    rw [hnext, ← hsame.eom, ← hsame.frmEn, ← hsame.active, Option.some_inj, Option.some_inj]
    exact ⟨heffect.eom_cases, heffect.frmEn_cases⟩
  · obtain rfl : v = t := by simpa [hv] using h
    exact ⟨.inl hquiet.eom, .inl hquiet.frmEn⟩

/-- Settles O21: a step that changes one of the two registers runs its command while Suspended; the
answers while Active are those of R123 and R124. -/
theorem configurationFrozenWhileActive : Obligations.ConfigurationFrozenWhileActive := by
  refine ⟨fun s t h => ?_, fun _ b => exec_seteom_active b, fun _ f => exec_setfrm_active f⟩
  obtain ⟨heom, hfrm⟩ := step_config_cases h
  refine ⟨fun ha => ?_, heom.imp_right And.right, hfrm.imp_right And.right⟩
  have hnot : ¬ s.active = false := ne_false_of_eq_true ha
  exact ⟨heom.resolve_right fun ⟨hsusp, _⟩ => hnot hsusp,
    hfrm.resolve_right fun ⟨hsusp, _⟩ => hnot hsusp⟩

end

end Sys2Proof.Machine

/-! PROOFS. The statements of 42_receive_source.md: ARRIVE (R135) and overrun (R143), RXEVT (R136)
and its gate (R137), the receive event beside a waiting command (R140) and across a CLEAR (R142), its
progress (R144), and the collapsed step RX (R145). -/

namespace Sys2Proof.Machine

section
variable {s t : State}

/-! ### ARRIVE (R135, R143)

One equation per case of the event, and one of the overrun per value of LD_OVERRUN. -/

/-- The state an ARRIVE into an empty receive register leaves. -/
def State.arrived (b : Byte) (s : State) : State := { s with rxByte := b, rxRdy := true, out := {} }

theorem RingInv.arrived (hi : RingInv s) (ha : s.active = true) (b : Byte) :
    RingInv (s.arrived b) :=
  hi.congr rfl rfl rfl rfl rfl rfl rfl fun hf => absurd (ha.symm.trans hf) nofun

theorem arrive_empty (b : Byte) (ha : s.active = true) (hrx : s.rxRdy = false) :
    s.arrive b = s.arrived b := by
  rw [State.arrive, if_pos ha, if_neg (ne_true_of_eq_false hrx)]
  rfl

theorem arrive_unread (b : Byte) (ha : s.active = true) (hrx : s.rxRdy = true) :
    s.arrive b = (s.overrun b).emit {} := by
  rw [State.arrive, if_pos ha, if_pos hrx]

theorem arrive_suspended (b : Byte) (ha : s.active = false) : s.arrive b = s.emit {} := by
  rw [State.arrive, if_neg (ne_true_of_eq_false ha), State.idle_eq]

theorem overrun_lost (b : Byte) (h : s.cfg.ldOverrun = .newByteLost) : s.overrun b = s := by
  rw [State.overrun, h]

theorem overrun_replaced (b : Byte) (h : s.cfg.ldOverrun = .newByteReplaces) :
    s.overrun b = { s with rxByte := b } := by
  rw [State.overrun, h]

/-- The free value of the run decides which of the two bytes stays. -/
theorem overrun_either (b : Byte) (h : s.cfg.ldOverrun = .either) :
    s.overrun b =
      { s with
        rxByte := if Config.freeOverrun s.draws then b else s.rxByte, draws := s.draws + 1 } := by
  rw [State.overrun, h]

theorem step_arrive_empty {b : Byte} {ts : List Turn} (ht : s.turns = .arrive b :: ts)
    (ha : s.active = true) (hrx : s.rxRdy = false) :
    step s = .next (({ s with turns := ts } : State).arrived b) := by
  rw [step_arrive ht, arrive_empty (s := { s with turns := ts }) b ha hrx]

/-- Settles O26: the two cases of ARRIVE that find no unread byte. -/
theorem arriveResult : Obligations.ArriveResult := by
  intro s b ts ht
  refine ⟨fun ha hrx => ⟨step_arrive_empty ht ha hrx, rfl⟩, fun ha => ?_⟩
  rw [step_arrive ht, arrive_suspended (s := { s with turns := ts }) b ha]
  rfl

/-- Settles O27: one case per value of LD_OVERRUN; left open, either value of the free choice leaves
one of the two bytes. -/
theorem overrunOutcomes : Obligations.OverrunOutcomes := by
  intro s b ts ht ha hrx
  rw [step_arrive ht, arrive_unread (s := { s with turns := ts }) b ha hrx]
  refine ⟨fun h => ?_, fun h => ?_,
    fun h => ⟨if Config.freeOverrun s.draws then b else s.rxByte, ?_, ?_⟩⟩
  · rw [overrun_lost (s := { s with turns := ts }) b h]
    rfl
  · rw [overrun_replaced (s := { s with turns := ts }) b h]
    rfl
  · split
    · exact .inr rfl
    · exact .inl rfl
  · rw [overrun_either (s := { s with turns := ts }) b h]
    rfl

/-! ### RXEVT (R136, R137)

One equation per case of the operation: not requested, ring full, ring with room. -/

theorem exec_rxevt_idle (hno : s.evtReq = false) : exec .rxevt s = .next (s.emit {}) := by
  rw [exec, execRxevt, if_neg (ne_true_of_eq_false hno), State.idle_eq]

theorem exec_rxevt_full (hreq : s.evtReq = true) (hfull : s.count = s.cfg.capacity) :
    exec .rxevt s = .next (s.readRx.emit { rxRd := true, pushFail := true }) := by
  rw [exec, execRxevt, if_pos hreq, serviceReceiveEvent, rbPush_full (s := s.readRx) _ hfull]
  rfl

theorem RingInv.exec_rxevt_room (hi : RingInv s) (hreq : s.evtReq = true)
    (hroom : s.count < s.cfg.capacity) :
    exec .rxevt s =
      .next (((s.readRx.pushed s.rxByte).fsNoteByte s.rxByte).emit { rxRd := true }) := by
  rw [exec, execRxevt, if_pos hreq, serviceReceiveEvent,
    rbPush_room (s := s.readRx) _ hroom.ne hi.tail_lt]
  rfl

/-- A byte received into a ring with room is appended to `Q`; counting it leaves `Q`. -/
theorem RingInv.contents_received (hi : RingInv s) (hroom : s.count < s.cfg.capacity) (b : Byte)
    (o : Outputs) :
    (((s.readRx.pushed b).fsNoteByte b).emit o).contents = s.contents ++ [b] := by
  rw [State.fsNoteByte_eq]
  exact hi.readRx.contents_pushed b hroom

/-- `fs_note_byte` as R120 and R125 write it: a terminator is counted if framing is enabled, up to
the top of the counter. -/
theorem fsNoteByte_saturating (b : Byte) (s : State) :
    s.fsNoteByte b =
      { s with
        msgs :=
          if s.frmEn = true ∧ b = s.eom then
            if s.msgs = 2 ^ s.cfg.msgWidth - 1 then s.msgs else s.msgs + 1
          else s.msgs } := by
  by_cases hcount : s.frmEn = true ∧ b = s.eom
  · rw [State.fsNoteByte, if_pos (by simpa [isTerm] using hcount), if_pos hcount]
    rfl
  · rw [State.fsNoteByte, if_neg (by simpa [isTerm] using hcount), if_neg hcount]

/-- Settles O24: the two cases of RXEVT with the event requested, and the row of the event word. -/
theorem rxevtResult : Obligations.RxevtResult := by
  refine ⟨fun d => ?_, fun s hi ha hrx => ?_⟩
  · exact decode_eventWord { State.reset with rxRdy := true, rxByte := d }
  · have hreq := hi.evtReq hrx
    refine ⟨fun hroom => ⟨_, hi.exec_rxevt_room hreq hroom, hi.contents_received hroom _ _, ?_⟩,
      exec_rxevt_full hreq⟩
    rw [fsNoteByte_saturating, addMod_one hi.tail_lt]
    exact ⟨Memory.read_write_same .., fun a hne => Memory.read_write_other _ _ hne, rfl⟩

/-- A turn of the producer without a requested event changes nothing but the strobes. -/
theorem producerTurn_idle (hno : s.evtReq = false) : producerTurn s = .next (s.emit {}) := by
  rcases producerTurn_cases s with ⟨_, h⟩ | ⟨_, h⟩
  · rw [h, exec_rxevt_idle hno]
  · exact h

/-- Settles O25: the gate, and the idle turn behind it. -/
theorem rxevtOnlyWhenRequested : Obligations.RxevtOnlyWhenRequested := by
  intro s
  have hgate : s.evtReq = true ↔ s.active = true ∧ s.rxRdy = true := (evtReq_iff s).trans and_comm
  refine ⟨hgate, fun hno => ?_⟩
  have hreq : s.evtReq = false := by rwa [← hgate, Bool.not_eq_true] at hno
  refine ⟨exec_rxevt_idle hreq, fun ts ht => ?_⟩
  rw [step_producer ht]
  exact producerTurn_idle (s := { s with turns := ts }) hreq

/-! ### The receive event beside the consumer (R140, R142) -/

/-- A scheduled turn of the producer with a byte waiting runs RXEVT. -/
theorem step_producer_pending {ts : List Turn} (ht : s.turns = .producer :: ts)
    (hrx : s.rxRdy = true) : step s = exec .rxevt { s with turns := ts } := by
  rw [step_producer ht]
  exact producerTurn_pending hrx

/-- Settles O54: RXEVT reads neither the held command nor the schedule. -/
theorem waitingCommandDoesNotBlockReceive : Obligations.WaitingCommandDoesNotBlockReceive := by
  intro s w ts hi _ hrx hheld ht hroom
  have hsame := SameBlock.turns s ts
  have hi' := hsame.inv hi
  have hexec := hi'.exec_rxevt_room (hi'.evtReq hrx) hroom
  refine ⟨_, (step_producer_pending ht hrx).trans hexec, ?_, ?_⟩
  · rw [hi'.contents_received hroom, hsame.contents]
  · rw [State.fsNoteByte_eq]
    exact ⟨hheld, rfl, rfl⟩

/-- A counter at 0 is at its top exactly when it has no bit. -/
theorem zero_eq_top_iff (w : Nat) : 0 = 2 ^ w - 1 ↔ w = 0 := by
  have hbit : 1 < 2 ^ w ↔ w ≠ 0 := Nat.one_lt_two_pow_iff
  omega

/-- The first byte counted after a clear. -/
theorem fsNoteByte_msgs_of_zero (b : Byte) (h : s.msgs = 0) :
    (s.fsNoteByte b).msgs =
      if s.frmEn = true ∧ b = s.eom ∧ s.cfg.msgWidth ≠ 0 then 1 else 0 := by
  have hmsgs : (s.fsNoteByte b).msgs =
      if s.frmEn = true ∧ b = s.eom then if s.cfg.msgWidth = 0 then 0 else 1 else 0 := by
    simp only [fsNoteByte_saturating, h, zero_eq_top_iff, Nat.zero_add]
  rw [hmsgs]
  by_cases hw : s.cfg.msgWidth = 0
  · simp [hw]
  · simp [hw]

/-- Settles O30: CLEAR leaves the receive register and an empty ring, which has room for the byte. -/
theorem pendingByteSurvivesClear : Obligations.PendingByteSurvivesClear := by
  intro s hi _ hrx
  have hclear : exec .clear s = .next (s.clearRing.respond .ok 0#16 []) := rfl
  have hi' := exec_inv hi hclear
  have hroom : 0 < s.cfg.capacity := s.cfg.capacity_pos
  exact ⟨_, _, hclear, hrx, contents_of_count_zero rfl,
    hi'.exec_rxevt_room (hi'.evtReq hrx) hroom, hi'.contents_received hroom _ _,
    State.fsNoteByte_rxRdy .., fsNoteByte_msgs_of_zero _ rfl⟩

/-! ### Progress of the receive event (R144) -/

/-- With no turn scheduled the step takes the waiting byte out of the receive register (log 2): it
runs RXEVT, one of the operations that do (R33). -/
theorem RingInv.rxRdy_of_step_nil (hi : RingInv s) (hrx : s.rxRdy = true) (ht : s.turns = [])
    (h : step s = .next t) : t.rxRdy = false := by
  have hnext : s.nextInstr = some .rxevt := by
    rw [nextInstr_nil ht, if_pos (hi.evtReq hrx), nextEvent_eq, if_pos hrx]
  exact (receiveRegisterClearers s t hi hrx h).2 (.inl hnext)

/-- Settles O55, by induction on the schedule: a step takes the byte, or uses up a turn and leaves
the byte to the rest. -/
theorem pendingEventIsServiced : Obligations.PendingEventIsServiced := by
  intro s hi hrx
  induction hturns : s.turns generalizing s with
  | nil =>
    obtain ⟨t, ht⟩ := hi.step_next
    exact ⟨1, t, le_rfl, runFor_of_next 0 ht, hi.rxRdy_of_step_nil hrx hturns ht⟩
  | cons turn ts ih =>
    obtain ⟨u, hu⟩ := hi.step_next
    cases hrx' : u.rxRdy with
    | false => exact ⟨1, u, by simp, runFor_of_next 0 hu, hrx'⟩
    | true =>
      have hrest : u.turns = ts := by rw [step_turns hu, hturns, List.tail_cons]
      obtain ⟨n, t, hn, hrun, hdone⟩ := ih u (stepKeepsInvariant s u hi hu) hrx' hrest
      exact ⟨n + 1, t, Nat.succ_le_succ hn, (runFor_of_next n hu).trans hrun, hdone⟩

/-! ### The collapsed step (R145) -/

theorem rxCollapsed_full (b : Byte) (ha : s.active = true) (hfull : s.count = s.cfg.capacity) :
    rxCollapsed b s = .ok s := by
  rw [rxCollapsed, if_pos ha, rbPush_full b hfull]

theorem RingInv.rxCollapsed_room (hi : RingInv s) (b : Byte) (ha : s.active = true)
    (hroom : s.count ≠ s.cfg.capacity) : rxCollapsed b s = .ok ((s.pushed b).fsNoteByte b) := by
  rw [rxCollapsed, if_pos ha, rbPush_room b hroom hi.tail_lt]

/-- ARRIVE into an empty receive register, then the producer's turn, run RXEVT on the byte. -/
theorem runFor_arrive_producer {b : Byte} {ts : List Turn} (ha : s.active = true)
    (hrx : s.rxRdy = false) (ht : s.turns = .arrive b :: .producer :: ts)
    (h : exec .rxevt (({ s with turns := ts } : State).arrived b) = .next t) :
    runFor 2 s = .next t :=
  (runFor_of_next 1 (step_arrive_empty ht ha hrx)).trans
    (runFor_of_next 0 ((step_producer_pending rfl rfl).trans h))

theorem readRx_eq_self (hrx : s.rxRdy = false) : s.readRx = s := by
  rw [State.readRx, ← hrx]

/-- Settles O29: with a ring full or with room, RXEVT after ARRIVE makes the collapsed step's push
and count, and empties the receive register again. -/
theorem collapsedReceiveStep : Obligations.CollapsedReceiveStep := by
  intro s b ts hi ha hrx ht
  have hi' : RingInv (({ s with turns := ts } : State).arrived b) :=
    ((SameBlock.turns s ts).inv hi).arrived ha b
  have hreq := hi'.evtReq rfl
  by_cases hfull : s.count = s.cfg.capacity
  · refine ⟨s, rxCollapsed_full b ha hfull, ?_⟩
    rw [runFor_arrive_producer ha hrx ht (exec_rxevt_full hreq hfull), decide_eq_true hfull,
      ← readRx_eq_self hrx]
    rfl
  · refine ⟨_, hi.rxCollapsed_room b ha hfull, ?_⟩
    rw [runFor_arrive_producer ha hrx ht (hi'.exec_rxevt_room hreq (hi.count_le.lt_of_ne hfull)),
      decide_eq_false hfull, State.fsNoteByte_eq, State.fsNoteByte_eq, ← readRx_eq_self hrx]
    rfl

end

end Sys2Proof.Machine

/-! PROOFS. The statements of 43_channel.md: the lifecycle commands (R155 to R157) and the channel
state (R164), GET and GETMSG (R158, R159), the pass-throughs PUT and GET1 with the pin `tx_free`
(R160, R161), RDREG (R162) and the Active check of the data commands (R163). -/

namespace Sys2Proof.Machine

section
variable {s t : State}

/-! ### Lifecycle (R155 to R157, R164) -/

/-- The flags of an empty ring with nothing counted; a ring has at least one slot (R5). -/
theorem flags_of_cleared (hcount : s.count = 0) (hmsgs : s.msgs = 0) :
    s.isEmpty = true ∧ s.isFull = false ∧ s.msgAvl = false := by
  have hcap : s.count ≠ s.cfg.capacity := hcount ▸ s.cfg.capacity_pos.ne
  exact ⟨decide_eq_true hcount, decide_eq_false hcap, decide_eq_false (not_not_intro hmsgs)⟩

/-- Settles O9: the state RESUME writes is Active, with a cleared ring. -/
theorem resumeResult : Obligations.ResumeResult :=
  ⟨fun _ => decode_append .resume,
    fun _ => ⟨_, rfl, rfl, rfl, rfl, rfl, flags_of_cleared rfl rfl⟩⟩

/-- Settles O10: the state SUSPEND writes is Suspended, with a cleared ring. -/
theorem suspendResult : Obligations.SuspendResult :=
  ⟨fun _ => decode_append .suspend,
    fun _ => ⟨_, rfl, rfl, rfl, rfl, rfl, flags_of_cleared rfl rfl⟩⟩

/-- Settles O11: the state CLEAR writes has a cleared ring and the channel state it had. -/
theorem clearResult : Obligations.ClearResult :=
  ⟨fun _ => decode_append .clear,
    fun _ => ⟨_, rfl, rfl, rfl, rfl, rfl, flags_of_cleared rfl rfl⟩⟩

/-- Only RESUME and SUSPEND write the channel state. -/
theorem OpEffect.active {i : Instr} {u : State} (he : OpEffect s i u) (hresume : i ≠ .resume)
    (hsuspend : i ≠ .suspend) : u.active = s.active := by
  cases he with
  | resume => exact absurd rfl hresume
  | suspend => exact absurd rfl hsuspend
  | received => exact State.fsNoteByte_active ..
  | _ => rfl

theorem exec_active {i : Instr} (hresume : i ≠ .resume) (hsuspend : i ≠ .suspend)
    (h : exec i s = .next t) : t.active = s.active := by
  obtain ⟨u, heffect, p, o, rfl⟩ := exec_effect h
  exact heffect.active hresume hsuspend

/-- Settles O12: the two lifecycle commands write constants, so that a second one writes the same
again; no other operation and no quiet step writes the channel state. -/
theorem lifecycleStateMachine : Obligations.LifecycleStateMachine := by
  refine ⟨fun i s t h => ⟨?_, ?_, fun hr hs => exec_active hr hs h⟩, fun s t h hnone => ?_,
    fun s t h => ?_, fun s t h => ?_⟩
  · rintro rfl; cases h; rfl
  · rintro rfl; cases h; rfl
  · rcases step_cases s with ⟨i, _, hsome, _⟩ | ⟨_, v, hv, hquiet⟩
    · rw [hnone] at hsome; cases hsome
    · obtain rfl : v = t := by simpa [hv] using h
      exact hquiet.active
  · cases h; rfl
  · cases h; rfl

/-! ### GET and GETMSG (R158, R159)

One equation per case of each command, told on the abstract content. -/

theorem exec_get_suspended (n : Nat) (ha : s.active = false) :
    exec (.get n) s = .next (s.respond .notactive 0#16 []) := by
  rw [exec, execGet, if_neg (ne_true_of_eq_false ha)]

theorem RingInv.exec_get_active (hi : RingInv s) (n : Nat) (ha : s.active = true) :
    exec (.get n) s =
      .next ((s.dropOldest (min n s.count)).respond .ok (BitVec.ofNat 16 (min n s.count))
        (s.contents.take n)) := by
  rw [exec, execGet, if_pos ha, hi.rbPopUpTo_eq]
  rfl

/-- Removing `n` bytes, or all there are, drops the first `n` of `Q`. -/
theorem RingInv.contents_dropOldest_min (hi : RingInv s) (n : Nat) :
    (s.dropOldest (min n s.count)).contents = s.contents.drop n := by
  rw [hi.contents_dropOldest (Nat.min_le_right ..), List.drop_eq_drop_iff, hi.contents_length]
  omega

/-- Settles O14: the two cases of GET, and its row of the opcode table. -/
theorem getResult : Obligations.GetResult := by
  refine ⟨fun _ => decode_append .get, fun s n hi => ⟨exec_get_suspended n, fun ha => ?_⟩⟩
  exact ⟨_, hi.exec_get_active n ha, (respond_contents ..).trans (hi.contents_dropOldest_min n),
    by rw [List.length_take, hi.contents_length], rfl⟩

/-- A list without a terminator is one in which none is found. -/
theorem findIdx?_isTerm_eq_none {term : Byte} {q : List Byte} (h : term ∉ q) :
    q.findIdx? (isTerm · term) = none := by
  rw [List.findIdx?_eq_none_iff]
  intro b hb
  exact decide_eq_false fun hterm => h (hterm ▸ hb)

/-- The terminator found is the first one. -/
theorem findIdx?_isTerm_eq_some {term : Byte} {q : List Byte} {p : Nat} (hp : q[p]? = some term)
    (hfirst : term ∉ q.take p) : q.findIdx? (isTerm · term) = some p := by
  obtain ⟨hlt, hget⟩ := List.getElem?_eq_some_iff.1 hp
  rw [List.findIdx?_eq_some_iff_getElem]
  refine ⟨hlt, decide_eq_true hget, fun j hj => ?_⟩
  have hne : ¬ q[j] = term := fun hterm =>
    hfirst (List.mem_take_iff_getElem.2 ⟨j, by omega, hterm⟩)
  simpa [isTerm] using hne

/-- The first terminator of the ring is the first of every window that reaches it. -/
theorem findIdx?_isTerm_take {term : Byte} {q : List Byte} {p n : Nat} (hp : q[p]? = some term)
    (hfirst : term ∉ q.take p) (hn : p < n) :
    (q.take n).findIdx? (isTerm · term) = some p := by
  refine findIdx?_isTerm_eq_some ((List.getElem?_take_of_lt hn).trans hp) ?_
  rwa [List.take_take, Nat.min_eq_left hn.le]

theorem exec_getmsg_suspended (n : Nat) (ha : s.active = false) :
    exec (.getmsg n) s = .next (s.respond .notactive 0#16 []) := by
  rw [exec, execGetmsg, if_neg (ne_true_of_eq_false ha)]

/-- No terminator in the ring: NOMSG under either policy. -/
theorem RingInv.exec_getmsg_missing (hi : RingInv s) (n : Nat) (ha : s.active = true)
    (hq : s.eom ∉ s.contents) : exec (.getmsg n) s = .next (s.respond .nomsg 0#16 []) := by
  have hwin : (s.contents.take n).findIdx? (isTerm · s.eom) = none :=
    findIdx?_isTerm_eq_none fun hmem => hq (List.mem_of_mem_take hmem)
  rw [exec, execGetmsg, if_pos ha]
  cases hpol : s.cfg.oversize with
  | keep => rw [hi.rbPopUntilTerm_keep hpol hwin]; rfl
  | drop => rw [hi.rbPopUntilTerm_drop hpol hwin, findIdx?_isTerm_eq_none hq]; rfl

/-- A message that ends in the window is retrieved. -/
theorem RingInv.exec_getmsg_found (hi : RingInv s) {n p : Nat} (ha : s.active = true)
    (hp : s.contents[p]? = some s.eom) (hfirst : s.eom ∉ s.contents.take p) (hn : p < n) :
    exec (.getmsg n) s =
      .next ((s.dropOldest (p + 1)).fsConsume.respond .ok (BitVec.ofNat 16 (p + 1))
        (s.contents.take (p + 1))) := by
  obtain ⟨hlt, _⟩ := List.getElem?_eq_some_iff.1 hp
  have hlen : (s.contents.take (p + 1)).length = p + 1 := List.length_take_of_le hlt
  rw [exec, execGetmsg, if_pos ha, hi.rbPopUntilTerm_found (findIdx?_isTerm_take hp hfirst hn)]
  simp only [hlen]
  rfl

/-- A message that ends past the window stays under KEEP (R103). -/
theorem RingInv.exec_getmsg_keep (hi : RingInv s) {n p : Nat} (ha : s.active = true)
    (hfirst : s.eom ∉ s.contents.take p) (hn : n ≤ p) (hpol : s.cfg.oversize = .keep) :
    exec (.getmsg n) s = .next (s.respond .nomsg 0#16 []) := by
  have hwin : (s.contents.take n).findIdx? (isTerm · s.eom) = none :=
    findIdx?_isTerm_eq_none fun hmem => hfirst (List.take_subset_take_left _ hn hmem)
  rw [exec, execGetmsg, if_pos ha, hi.rbPopUntilTerm_keep hpol hwin]
  rfl

/-- A message that ends past the window goes under DROP (R104). -/
theorem RingInv.exec_getmsg_drop (hi : RingInv s) {n p : Nat} (ha : s.active = true)
    (hp : s.contents[p]? = some s.eom) (hfirst : s.eom ∉ s.contents.take p) (hn : n ≤ p)
    (hpol : s.cfg.oversize = .drop) :
    exec (.getmsg n) s = .next ((s.dropOldest (p + 1)).fsConsume.respond .nomsg 0#16 []) := by
  have hwin : (s.contents.take n).findIdx? (isTerm · s.eom) = none :=
    findIdx?_isTerm_eq_none fun hmem => hfirst (List.take_subset_take_left _ hn hmem)
  rw [exec, execGetmsg, if_pos ha, hi.rbPopUntilTerm_drop hpol hwin,
    findIdx?_isTerm_eq_some hp hfirst]
  rfl

/-- Taking a message off the counter and answering leave the rest of the ring. -/
theorem RingInv.contents_takeMessage (hi : RingInv s) {p : Nat} (hp : s.contents[p]? = some s.eom)
    (st : Status) (v : Word16) (d : List Byte) :
    ((s.dropOldest (p + 1)).fsConsume.respond st v d).contents = s.contents.drop (p + 1) := by
  obtain ⟨hlt, _⟩ := List.getElem?_eq_some_iff.1 hp
  rw [hi.contents_length] at hlt
  exact hi.contents_dropOldest hlt

/-- Settles O15: the five cases of GETMSG, and its row of the opcode table. -/
theorem getmsgResult : Obligations.GetmsgResult := by
  refine ⟨fun _ => decode_append .getmsg, fun s n hi =>
    ⟨exec_getmsg_suspended n, hi.exec_getmsg_missing n, fun p ha hp hfirst => ⟨fun hn => ?_,
      hi.exec_getmsg_keep ha hfirst, fun hn hpol => ?_⟩⟩⟩
  · exact ⟨_, hi.exec_getmsg_found ha hp hfirst hn, hi.contents_takeMessage hp .., rfl⟩
  · exact ⟨_, hi.exec_getmsg_drop ha hp hfirst hn hpol, hi.contents_takeMessage hp .., rfl⟩

/-! ### PUT and GET1 (R160, R161)

One equation per case of each command. -/

theorem exec_put_suspended (b : Byte) (ha : s.active = false) :
    exec (.put b) s = .next (s.respond .notactive 0#16 []) := by
  rw [exec, execPut, if_neg (ne_true_of_eq_false ha)]

theorem exec_put_free (b : Byte) (ha : s.active = true) (htx : s.txFree = true) :
    exec (.put b) s = .next (s.respondWith { tx := some b } .ok 0#16 []) := by
  rw [exec, execPut, if_pos ha, if_pos htx]

theorem exec_put_busy (b : Byte) (ha : s.active = true) (htx : s.txFree = false) :
    exec (.put b) s = .next s.wait := by
  rw [exec, execPut, if_pos ha, if_neg (ne_true_of_eq_false htx)]

/-- Settles O17: the three cases of PUT, and its row of the opcode table. -/
theorem putResult : Obligations.PutResult :=
  ⟨fun _ => decode_append .put,
    fun _ b => ⟨exec_put_suspended b, exec_put_free b, exec_put_busy b⟩⟩

theorem exec_get1_suspended (f : Bool) (ha : s.active = false) :
    exec (.get1 f) s = .next (s.respond .notactive 0#16 []) := by
  rw [exec, execGet1, if_neg (ne_true_of_eq_false ha)]

theorem exec_get1_ready (f : Bool) (ha : s.active = true) (hrx : s.rxRdy = true) :
    exec (.get1 f) s =
      .next (s.readRx.respondWith { rxRd := true } .ok (0x00#8 ++ s.rxByte) []) := by
  rw [exec, execGet1, if_pos ha, if_pos hrx, setWidth_byte]

/-- With no byte ready `blocking` decides between the wait and the answer NODATA. -/
theorem exec_get1_none (f : Bool) (ha : s.active = true) (hrx : s.rxRdy = false) :
    exec (.get1 f) s = .next (if f then s.wait else s.respond .nodata 0#16 []) := by
  rw [exec, execGet1, if_pos ha, if_neg (ne_true_of_eq_false hrx)]
  cases f <;> rfl

/-- Settles O18: the three cases of GET1, the last one for both values of `blocking`, and its row of
the opcode table. -/
theorem get1Result : Obligations.Get1Result := by
  refine ⟨fun _ => decode_append .get1, fun s f =>
    ⟨exec_get1_suspended f, exec_get1_ready f, fun ha hrx hf => ?_, fun ha hrx hf => ?_⟩⟩
  · rw [exec_get1_none f ha hrx, hf]; rfl
  · rw [exec_get1_none f ha hrx, hf]; rfl

/-! ### `tx_free` (R160) -/

theorem SameBlock.exec_txFree {i : Instr} {u : State} (hsame : SameBlock s u)
    (h : exec i u = .next t) : t.txFree = s.txFree := by
  obtain ⟨_, _, _, htx, _, _⟩ := exec_outside h
  exact htx.trans hsame.txFree

theorem consumerTurn_txFree (h : consumerTurn s = .next t) : t.txFree = s.txFree := by
  unfold consumerTurn at h
  split at h
  · cases h; rfl
  · rename_i w u htake
    have hsame := takeCommand_same htake
    split at h
    · exact hsame.exec_txFree h
    · cases h; exact hsame.txFree

theorem producerTurn_txFree (h : producerTurn s = .next t) : t.txFree = s.txFree := by
  rcases producerTurn_cases s with ⟨_, hrun⟩ | ⟨_, hidle⟩
  · exact (SameBlock.refl s).exec_txFree (hrun.symm.trans h)
  · rw [hidle] at h; cases h; rfl

theorem unscheduledTurn_txFree (h : unscheduledTurn s = .next t) : t.txFree = s.txFree := by
  unfold unscheduledTurn at h
  split at h
  · exact producerTurn_txFree h
  · exact consumerTurn_txFree h

/-- Settles O28: one case per turn; no operation and no ARRIVE touches the pin. -/
theorem txFreeIsTheEnvironments : Obligations.TxFreeIsTheEnvironments := by
  refine ⟨fun s v ts ht => step_txFree ht, fun s t h => ?_⟩
  cases ht : s.turns with
  | nil => rw [step_nil ht] at h; exact .inl (unscheduledTurn_txFree h)
  | cons turn ts =>
    cases turn with
    | consumer =>
      rw [step_consumer ht] at h
      exact .inl (consumerTurn_txFree (s := { s with turns := ts }) h)
    | producer =>
      rw [step_producer ht] at h
      exact .inl (producerTurn_txFree (s := { s with turns := ts }) h)
    | arrive b => rw [step_arrive ht] at h; cases h; exact .inl (State.arrive_txFree ..)
    | txFree v => rw [step_txFree ht] at h; cases h; exact .inr ⟨ts, rfl⟩

/-! ### RDREG (R162, R40) -/

theorem exec_rdreg_of_readReg {r : Nat} {v : Word16} (h : s.readReg r = some v) :
    exec (.rdreg r) s = .next (s.respond .ok v []) := by
  rw [exec, execRdreg, h]

theorem exec_rdreg_reserved {r : Nat} (hr : 5 ≤ r) :
    exec (.rdreg r) s = .next (s.respond .illegal 0#16 []) := by
  rw [exec, execRdreg, readReg_reserved s hr]

/-- The registers of R40 are those numbered 0 to 4. -/
theorem exists_readReg (s : State) {r : Nat} (hr : r ≤ 4) : ∃ v, s.readReg r = some v := by
  interval_cases r
  exacts [⟨_, rfl⟩, ⟨_, rfl⟩, ⟨_, rfl⟩, ⟨_, rfl⟩, ⟨_, rfl⟩]

/-- The layout of STATUS, bit by bit (R40). -/
theorem statusReg_getLsbD (s : State) (j : Nat) :
    s.statusReg.getLsbD j =
      [s.active, s.isEmpty, s.isFull, s.msgAvl, s.frmEn].getD j false := by
  have hconcat : s.statusReg =
      (((((0#11).concat s.frmEn).concat s.msgAvl).concat s.isFull).concat s.isEmpty).concat
        s.active := rfl
  rw [hconcat]
  simp only [BitVec.getLsbD_concat, BitVec.getLsbD_zero]
  match j with
  | 0 | 1 | 2 | 3 | 4 => rfl
  | _ + 5 => simp

theorem RingInv.countReg_toNat (hi : RingInv s) : s.countReg.toNat = s.count := by
  have hlt : s.count < 2 ^ 16 := by
    have := hi.count_le
    have := s.cfg.capacity_le
    omega
  rw [State.countReg, BitVec.toNat_ofNat, Nat.mod_eq_of_lt hlt]

/-- A counter of at most 16 bits is shown whole. -/
theorem RingInv.msgsReg_toNat_narrow (hi : RingInv s) (hw : s.cfg.msgWidth ≤ 16) :
    s.msgsReg.toNat = s.msgs := by
  have hlt : s.msgs < 2 ^ 16 :=
    calc s.msgs ≤ 2 ^ s.cfg.msgWidth - 1 := hi.msgs_le
      _ < 2 ^ s.cfg.msgWidth := Nat.sub_one_lt (Nat.two_pow_pos _).ne'
      _ ≤ 2 ^ 16 := Nat.pow_le_pow_right two_pos hw
  rw [State.msgsReg, if_pos hw, BitVec.toNat_ofNat, Nat.mod_eq_of_lt hlt]

/-- A wider counter is shown up to the greatest 16-bit value. -/
theorem msgsReg_toNat_wide (hw : 16 < s.cfg.msgWidth) : s.msgsReg.toNat = min s.msgs 65535 := by
  have hlt : min s.msgs 65535 < 2 ^ 16 := by omega
  rw [State.msgsReg, if_neg (Nat.not_le_of_lt hw), BitVec.toNat_ofNat, Nat.mod_eq_of_lt hlt]

theorem eomReg_toNat (s : State) : s.eomReg.toNat = s.eom.toNat :=
  BitVec.toNat_setWidth_of_le (by decide)

theorem capReg_toNat (s : State) : s.capReg.toNat = s.cfg.capacity := by
  have hlt : s.cfg.capacity < 2 ^ 16 := Nat.lt_succ_of_le s.cfg.capacity_le
  rw [State.capReg, BitVec.toNat_ofNat, Nat.mod_eq_of_lt hlt]

/-- Settles O22: the register read is the one of its number, whose value has a lemma above. -/
theorem rdregResult : Obligations.RdregResult := by
  refine ⟨fun _ => decode_append .rdreg, fun s r hi => ⟨exec_rdreg_reserved, fun hr => ?_⟩⟩
  obtain ⟨v, hv⟩ := exists_readReg s hr
  refine ⟨v, exec_rdreg_of_readReg hv, ?_, ?_, ?_, ?_, ?_, ?_⟩
  · rintro rfl
    obtain rfl : s.statusReg = v := Option.some.inj hv
    have hbit := statusReg_getLsbD s
    refine ⟨hbit 0, hbit 1, hbit 2, hbit 3, hbit 4, fun j hj => ?_⟩
    obtain ⟨k, rfl⟩ := Nat.exists_eq_add_of_le' hj
    exact hbit (k + 5)
  · rintro rfl
    obtain rfl : s.countReg = v := Option.some.inj hv
    exact hi.countReg_toNat
  · rintro rfl
    obtain rfl : s.msgsReg = v := Option.some.inj hv
    exact hi.msgsReg_toNat_narrow
  · rintro rfl
    obtain rfl : s.msgsReg = v := Option.some.inj hv
    exact msgsReg_toNat_wide
  · rintro rfl
    obtain rfl : s.eomReg = v := Option.some.inj hv
    exact eomReg_toNat s
  · rintro rfl
    obtain rfl : s.capReg = v := Option.some.inj hv
    exact capReg_toNat s

/-! ### NOTACTIVE (R163)

The rows of the opcode table say who can answer it; each data command has it in one case only,
that of a Suspended channel. -/

theorem statusCode_injective : Function.Injective statusCode := by
  intro a b h
  cases a <;> cases b <;> cases h <;> rfl

/-- A response word tells its status. -/
theorem status_eq_of_rspWord_eq {st st' : Status} {v v' : Word16}
    (h : rspWord st v = rspWord st' v') : st = st' := by
  have hcode := congrArg rspStatus h
  rw [rspStatus_rspWord, rspStatus_rspWord] at hcode
  exact statusCode_injective hcode

/-- An operation answers the statuses of its row only. -/
theorem exec_rsp_mem_statuses {i : Instr} {st : Status} {v : Word16} (h : exec i s = .next t)
    (hrsp : t.out.rsp = some (rspWord st v)) : st ∈ statuses i := by
  cases exec_port h with
  | waiting => cases hrsp
  | event u o _ hnone => rw [State.emit_out, hnone] at hrsp; cases hrsp
  | answered u o hans =>
    obtain rfl := status_eq_of_rspWord_eq (Option.some.inj hrsp)
    exact hans.mem_statuses

/-- NOTACTIVE stands in the rows of the five data commands. -/
theorem notactive_mem_statuses_iff (i : Instr) :
    .notactive ∈ statuses i ↔
      i = .pop1 ∨ (∃ n, i = .get n) ∨ (∃ n, i = .getmsg n) ∨ (∃ b, i = .put b) ∨
        ∃ f, i = .get1 f := by
  cases i <;> simp [statuses]

/-- The five data commands while Suspended. -/
theorem exec_notactive {i : Instr} (hi : .notactive ∈ statuses i) (ha : s.active = false) :
    exec i s = .next (s.respond .notactive 0#16 []) := by
  rcases (notactive_mem_statuses_iff i).1 hi with
    rfl | ⟨n, rfl⟩ | ⟨n, rfl⟩ | ⟨b, rfl⟩ | ⟨f, rfl⟩
  · exact execPop1_suspended ha
  · exact exec_get_suspended n ha
  · exact exec_getmsg_suspended n ha
  · exact exec_put_suspended b ha
  · exact exec_get1_suspended f ha

/-- An answer with one status is no answer with another. -/
theorem status_eq_of_respondWith {st st' : Status} {v v' : Word16} {d : List Byte} {o : Outputs}
    {u : State} (h : (u.respondWith o st v d).out.rsp = some (rspWord st' v')) : st = st' :=
  status_eq_of_rspWord_eq (Option.some.inj h)

/-- PUT on an Active channel answers OK or waits. -/
theorem exec_put_notactive {b : Byte} (h : exec (.put b) s = .next t)
    (hrsp : t.out.rsp = some (rspWord .notactive 0#16)) : s.active = false := by
  by_contra hno
  have ha : s.active = true := by simpa using hno
  cases htx : s.txFree with
  | true =>
    rw [exec_put_free b ha htx] at h
    cases h
    exact nomatch status_eq_of_respondWith hrsp
  | false =>
    rw [exec_put_busy b ha htx] at h
    cases h
    cases hrsp

/-- GET1 on an Active channel answers OK or NODATA, or waits. -/
theorem exec_get1_notactive {f : Bool} (h : exec (.get1 f) s = .next t)
    (hrsp : t.out.rsp = some (rspWord .notactive 0#16)) : s.active = false := by
  by_contra hno
  have ha : s.active = true := by simpa using hno
  cases hrx : s.rxRdy with
  | true =>
    rw [exec_get1_ready f ha hrx] at h
    cases h
    exact nomatch status_eq_of_respondWith hrsp
  | false =>
    rw [exec_get1_none f ha hrx] at h
    cases f with
    | true => cases h; cases hrsp
    | false => cases h; exact nomatch status_eq_of_respondWith hrsp

/-- On an Active channel a data command answers another status. -/
theorem suspended_of_notactive {i : Instr} (hi : .notactive ∈ statuses i)
    (h : exec i s = .next t) (hrsp : t.out.rsp = some (rspWord .notactive 0#16)) :
    s.active = false := by
  rcases (notactive_mem_statuses_iff i).1 hi with
    rfl | ⟨n, rfl⟩ | ⟨n, rfl⟩ | ⟨b, rfl⟩ | ⟨f, rfl⟩
  · rcases execPop1_cases h with ⟨ha, _⟩ | ⟨_, _, rfl⟩ | ⟨_, _, _, _, rfl⟩
    · exact ha
    · exact nomatch status_eq_of_respondWith hrsp
    · exact nomatch status_eq_of_respondWith hrsp
  · rcases execGet_cases h with ⟨ha, _⟩ | ⟨_, _, _, rfl⟩
    · exact ha
    · exact nomatch status_eq_of_respondWith hrsp
  · rcases execGetmsg_cases h with
      ⟨ha, _⟩ | ⟨_, _, _, _, _, rfl⟩ | ⟨_, _, _, _, _, rfl⟩ | ⟨_, _, rfl⟩
    · exact ha
    · exact nomatch status_eq_of_respondWith hrsp
    · exact nomatch status_eq_of_respondWith hrsp
    · exact nomatch status_eq_of_respondWith hrsp
  · exact exec_put_notactive h hrsp
  · exact exec_get1_notactive h hrsp

/-- Settles O16: the rows of the opcode table say which commands can answer NOTACTIVE. -/
theorem dataCommandsNeedActive : Obligations.DataCommandsNeedActive := by
  refine ⟨fun s i ha hi => exec_notactive ((notactive_mem_statuses_iff i).2 hi) ha,
    fun s t i h hrsp => ?_⟩
  have hmem := exec_rsp_mem_statuses h (st := .notactive) (v := 0#16) hrsp
  exact ⟨suspended_of_notactive hmem h hrsp, (notactive_mem_statuses_iff i).1 hmem⟩

end

end Sys2Proof.Machine

/-! PROOFS. The statements of 60_exceptions.md: what is checked when an instance is built, and the
one pair that RESUME hands the Line Driver (R191). -/

namespace Sys2Proof.Machine

section
variable {s t : State}

/-! ### The build-time check (R191 (a), R5, R12)

One equation per branch of `Config.build`. -/

theorem configBuild_invalid {c : Nat} {table : List LdSetting} {p : LdSetting}
    (h : ¬ ((0 < c ∧ c ≤ 65535) ∧ p ∈ table)) : Config.build c table p = none :=
  dif_neg h

theorem configBuild_valid {c : Nat} {table : List LdSetting} {p : LdSetting}
    (hpos : 0 < c) (hle : c ≤ 65535) (hp : p ∈ table) :
    Config.build c table p =
      some
        { capacity := c, capacity_pos := hpos, capacity_le := hle,
          ldTable := table, ldSetting := p, ld_supported := hp } :=
  dif_pos ⟨⟨hpos, hle⟩, hp⟩

/-! ### The strobe `ld_cfg` (R191, R155) -/

theorem exec_resume_ldCfg (h : exec .resume s = .next t) :
    t.out.ldCfg = some s.cfg.ldSetting := by
  cases h; rfl

/-- No operation but RESUME drives `ld_cfg`, in any of its cases. -/
theorem exec_ldCfg_none {i : Instr} (hi : i ≠ .resume) (h : exec i s = .next t) :
    t.out.ldCfg = none := by
  cases i with
  | resume => exact absurd rfl hi
  | suspend | clear => cases h; rfl
  | pop1 => rcases execPop1_cases h with ⟨_, rfl⟩ | ⟨_, _, rfl⟩ | ⟨_, _, _, _, rfl⟩ <;> rfl
  | get n => rcases execGet_cases h with ⟨_, rfl⟩ | ⟨_, _, _, rfl⟩ <;> rfl
  | getmsg n =>
    rcases execGetmsg_cases h with
      ⟨_, rfl⟩ | ⟨_, _, _, _, _, rfl⟩ | ⟨_, _, _, _, _, rfl⟩ | ⟨_, _, rfl⟩ <;> rfl
  | put b =>
    rw [exec, execPut] at h
    split at h <;> [split at h; skip] <;> cases h <;> rfl
  | get1 f =>
    rw [exec, execGet1] at h
    split at h <;> [(split at h <;> [skip; split at h]); skip] <;> cases h <;> rfl
  | seteom b => rw [exec, execSeteom] at h; split at h <;> cases h <;> rfl
  | setfrm f => rw [exec, execSetfrm] at h; split at h <;> cases h <;> rfl
  | rdreg r => rw [exec, execRdreg] at h; split at h <;> cases h <;> rfl
  | rxevt => rcases execRxevt_cases h with ⟨_, rfl⟩ | ⟨_, _, rfl⟩ | ⟨_, _, _, rfl⟩ <;> rfl

/-- A step drives `ld_cfg` exactly when it runs RESUME, and then with the pair built in. -/
theorem step_ldCfg_cases (h : step s = .next t) :
    (s.nextInstr = some .resume ∧ t.out.ldCfg = some s.cfg.ldSetting) ∨
      (s.nextInstr ≠ some .resume ∧ t.out.ldCfg = none) := by
  rcases step_cases s with ⟨i, s0, hnext, hsame, hexec⟩ | ⟨hnone, u, hu, hquiet⟩
  · rw [hexec] at h
    by_cases hi : i = .resume
    · subst hi
      exact .inl ⟨hnext, hsame.cfg ▸ exec_resume_ldCfg h⟩
    · exact .inr ⟨by simpa [hnext] using hi, exec_ldCfg_none hi h⟩
  · obtain rfl : u = t := by simpa [hu] using h
    exact .inr ⟨by simp [hnone], hquiet.ldCfg⟩

/-- Settles O58: the two branches of the build, and `step_ldCfg_cases` with the proof that the
configuration carries of its own pair. -/
theorem unsupportedPairIsNotBuilt : Obligations.UnsupportedPairIsNotBuilt := by
  refine ⟨fun c table p => ⟨fun hp => ?_, fun hc => ?_, fun hpos hle hp => ?_⟩, fun s t h => ?_⟩
  · exact configBuild_invalid fun hvalid => hp hvalid.2
  · exact configBuild_invalid fun ⟨⟨_, _⟩, _⟩ => by omega
  · exact ⟨_, configBuild_valid hpos hle hp, rfl, rfl, rfl⟩
  · rcases step_ldCfg_cases h with ⟨hnext, hcfg⟩ | ⟨hnext, hcfg⟩
    · refine ⟨fun p hp => ?_, by simp [hnext, hcfg]⟩
      obtain rfl : s.cfg.ldSetting = p := Option.some.inj (hcfg.symm.trans hp)
      exact ⟨rfl, s.cfg.ld_supported⟩
    · simp [hnext, hcfg]

end

end Sys2Proof.Machine

/-! PROOFS. The statements of 70_reset_and_hazards.md: the PUT and the blocking GET1 that wait for ever
(R229), the stale counter (R225), and the full ring without a terminator (R226). -/

namespace Sys2Proof.Machine

section
variable {s t : State} {w : Word24} {i : Instr} {cs : List Word24}

/-! ### Commands that wait (R229, R88) -/

theorem waits_put_iff (b : Byte) (s : State) :
    Waits (.put b) s ↔ s.active = true ∧ s.txFree = false := by
  simp [Waits]

theorem waits_get1_iff (s : State) :
    Waits (.get1 true) s ↔ s.active = true ∧ s.rxRdy = false := by
  simp [Waits]

/-- A command that is not enabled yet leaves the block as it is (log 15). -/
theorem exec_of_waits (h : Waits i s) : exec i s = .next (s.emit {}) := by
  rcases h with ⟨⟨b, rfl⟩, ha, htx⟩ | ⟨rfl, ha, hrx⟩
  · rw [exec_put_busy b ha htx, State.wait_eq]
  · rw [exec_get1_none true ha hrx, if_pos rfl, State.wait_eq]

/-- `s` with its next turn used up. -/
def State.turnTaken (s : State) : State := { s with turns := s.turns.tail }

theorem turnTaken_same (s : State) : SameBlock s s.turnTaken := .turns s _

theorem turnTaken_of_nil (h : s.turns = []) : s.turnTaken = s := by
  rw [State.turnTaken, h, List.tail_nil, ← h]

theorem turnTaken_of_cons {turn : Turn} {ts : List Turn} (h : s.turns = turn :: ts) :
    s.turnTaken = { s with turns := ts } := by
  rw [State.turnTaken, h, List.tail_cons]

/-- `WaitStep s t`: with a waiting command at the port, a step from `s` can end in `t`. -/
inductive WaitStep (s : State) : State → Prop
  /-- The command waits on, or the producer finds no byte. -/
  | idle : WaitStep s (s.turnTaken.emit {})
  | event {t : State} : s.rxRdy = true → exec .rxevt s.turnTaken = .next t → WaitStep s t
  | arrive (b : Byte) : .arrive b ∈ s.turns → WaitStep s (s.turnTaken.arrive b)
  | txFree (v : Bool) : WaitStep s (s.turnTaken.lineTxFree v)

/-- The consumer's turn with a waiting command at the port. -/
theorem consumerTurn_waits (hheld : s.held = some w) (hdec : decode (.cmd w) = .ok i)
    (hwait : Waits i s) : consumerTurn s = .next (s.emit {}) := by
  rw [consumerTurn_ok (takeCommand_held hheld) hdec, exec_of_waits hwait]

/-- WHAT A STEP CAN DO while a command waits at the port: one case per agent. -/
theorem waitStep_of_step (hheld : s.held = some w) (hdec : decode (.cmd w) = .ok i)
    (hwait : Waits i s) (h : step s = .next t) : WaitStep s t := by
  have hconsumer : consumerTurn s.turnTaken = .next t → WaitStep s t := fun hturn => by
    rw [consumerTurn_waits (s := s.turnTaken) hheld hdec hwait] at hturn
    cases hturn
    exact .idle
  have hproducer : producerTurn s.turnTaken = .next t → WaitStep s t := fun hturn => by
    cases hrx : s.rxRdy with
    | true => exact .event hrx (producerTurn_pending (s := s.turnTaken) hrx ▸ hturn)
    | false =>
      have hno : s.turnTaken.evtReq = false := by simp [State.evtReq, State.turnTaken, hrx]
      rw [producerTurn_idle hno] at hturn
      cases hturn
      exact .idle
  cases ht : s.turns with
  | nil =>
    rw [step_nil ht, unscheduledTurn] at h
    rw [turnTaken_of_nil ht] at hconsumer hproducer
    split at h
    · exact hproducer h
    · exact hconsumer h
  | cons turn ts =>
    have htaken := turnTaken_of_cons ht
    cases turn with
    | consumer => rw [step_consumer ht, ← htaken] at h; exact hconsumer h
    | producer => rw [step_producer ht, ← htaken] at h; exact hproducer h
    | arrive b =>
      rw [step_arrive ht, ← htaken] at h
      cases h
      exact .arrive b (ht ▸ List.mem_cons_self)
    | txFree v => rw [step_txFree ht, ← htaken] at h; cases h; exact .txFree v

/-- ARRIVE drives nothing. -/
theorem arrive_out (b : Byte) (s : State) : (s.arrive b).out = {} := by
  cases ha : s.active with
  | false => rw [arrive_suspended b ha, State.emit_out]
  | true =>
    cases hrx : s.rxRdy with
    | false => rw [arrive_empty b ha hrx]; rfl
    | true => rw [arrive_unread b ha hrx, State.emit_out]

/-- No agent answers a waiting command, takes another one, or suspends the channel. -/
theorem WaitStep.port (h : WaitStep s t) :
    t.held = s.held ∧ t.cmds = s.cmds ∧ t.active = s.active ∧ t.out.rsp = none := by
  cases h with
  | idle | txFree => exact ⟨rfl, rfl, rfl, rfl⟩
  | event _ hexec =>
    obtain ⟨_, _, hcmds, _, _, _⟩ := exec_outside hexec
    obtain ⟨hrsp, hheld⟩ := (oneResponsePerCommand _ _ _ hexec).1 rfl
    have hactive : t.active = s.turnTaken.active :=
      exec_active (i := .rxevt) nofun nofun hexec
    exact ⟨hheld, hcmds, hactive, hrsp⟩
  | arrive b =>
    exact ⟨State.arrive_held .., State.arrive_cmds .., State.arrive_active ..,
      by rw [arrive_out]⟩

/-- With no byte waiting and none arriving, the receive register stays empty and the ring stays. -/
theorem WaitStep.no_byte (h : WaitStep s t) (hrx : s.rxRdy = false)
    (hno : ∀ b, .arrive b ∉ s.turns) : t.rxRdy = false ∧ t.contents = s.contents := by
  cases h with
  | idle | txFree => exact ⟨hrx, (turnTaken_same s).contents⟩
  | event hrx' => rw [hrx] at hrx'; cases hrx'
  | arrive b hmem => exact absurd hmem (hno b)

/-- A turn that enables the waiting command: `tx_free` raised for PUT, an arriving byte for GET1. -/
def wakes : Instr → Turn → Bool
  | .put _, .txFree v => v
  | .get1 _, .arrive _ => true
  | _, _ => false

/-- The port is busy with the word `w`, whose command `i` waits, and no turn to come enables it;
`cs` are the words not yet taken. -/
structure Waiting (w : Word24) (i : Instr) (cs : List Word24) (s : State) : Prop where
  inv : RingInv s
  held : s.held = some w
  cmds : s.cmds = cs
  decodes : decode (.cmd w) = .ok i
  waits : Waits i s
  asleep : ∀ turn ∈ s.turns, wakes i turn = false

theorem Waiting.waitStep (hw : Waiting w i cs s) (h : step s = .next t) : WaitStep s t :=
  waitStep_of_step hw.held hw.decodes hw.waits h

/-- While a blocking GET1 waits, the receive register stays empty and the ring as it is. -/
theorem Waiting.get1_no_byte (hw : Waiting w (.get1 true) cs s) (h : step s = .next t) :
    t.rxRdy = false ∧ t.contents = s.contents := by
  obtain ⟨_, hrx⟩ := (waits_get1_iff s).1 hw.waits
  exact (hw.waitStep h).no_byte hrx fun b hmem => by cases hw.asleep _ hmem

/-- While a PUT waits, `tx_free` stays 0: only the environment drives that pin (R160). -/
theorem Waiting.put_txFree {b : Byte} (hw : Waiting w (.put b) cs s) (h : step s = .next t) :
    t.txFree = false := by
  obtain ⟨_, htx⟩ := (waits_put_iff b s).1 hw.waits
  rcases txFreeIsTheEnvironments.2 s t h with hsame | ⟨ts, hdriven⟩
  · exact hsame.trans htx
  · exact hw.asleep (.txFree t.txFree) (hdriven ▸ List.mem_cons_self)

/-- After any step the command is still not enabled. -/
theorem Waiting.still_waits (hw : Waiting w i cs s) (h : step s = .next t) : Waits i t := by
  obtain ⟨_, _, hactive, _⟩ := (hw.waitStep h).port
  rcases hw.waits with ⟨⟨b, rfl⟩, ha, _⟩ | ⟨rfl, ha, _⟩
  · exact (waits_put_iff b t).2 ⟨hactive.trans ha, hw.put_txFree h⟩
  · exact (waits_get1_iff t).2 ⟨hactive.trans ha, (hw.get1_no_byte h).1⟩

/-- Every step keeps the command waiting, unanswered. -/
theorem Waiting.next (hw : Waiting w i cs s) (h : step s = .next t) :
    Waiting w i cs t ∧ t.out.rsp = none := by
  obtain ⟨hheld, hcmds, _, hrsp⟩ := (hw.waitStep h).port
  have hasleep : ∀ turn ∈ t.turns, wakes i turn = false := fun turn hmem =>
    hw.asleep turn (List.mem_of_mem_tail (step_turns h ▸ hmem))
  exact ⟨⟨stepKeepsInvariant s t hw.inv h, hheld.trans hw.held, hcmds.trans hw.cmds, hw.decodes,
    hw.still_waits h, hasleep⟩, hrsp⟩

/-- A run through waiting states goes on, and with at least one step it ends without a response. -/
theorem Waiting.runFor_next (n : Nat) (hw : Waiting w i cs s) :
    ∃ t, runFor n s = .next t ∧ Waiting w i cs t ∧ (0 < n → t.out.rsp = none) := by
  induction n generalizing s with
  | zero => exact ⟨s, rfl, hw, fun h => absurd h (Nat.lt_irrefl 0)⟩
  | succ n ih =>
    obtain ⟨u, hu⟩ := hw.inv.step_next
    obtain ⟨hw', hrsp⟩ := hw.next hu
    obtain ⟨t, hrun, hlast, hrsp'⟩ := ih hw'
    refine ⟨t, (runFor_of_next n hu).trans hrun, hlast, fun _ => ?_⟩
    rcases n.eq_zero_or_pos with rfl | hpos
    · cases hrun; exact hrsp
    · exact hrsp' hpos

/-- A run in which a blocking GET1 waits leaves the ring's content. -/
theorem Waiting.get1_runFor_contents (n : Nat) (hw : Waiting w (.get1 true) cs s)
    (hrun : runFor n s = .next t) : t.contents = s.contents :=
  (runFor_keeps (P := fun u => Waiting w (.get1 true) cs u ∧ u.contents = s.contents)
    (fun _ _ ⟨hu, hq⟩ h => ⟨(hu.next h).1, (hu.get1_no_byte h).2.trans hq⟩)
    n ⟨hw, rfl⟩ hrun).2

/-- Settles O53: every state of the run is a `Waiting` one. -/
theorem waitingPutIsNeverAnswered : Obligations.WaitingPutIsNeverAnswered := by
  intro n s w b hi ha htx hheld hdec hturns
  have hasleep : ∀ turn ∈ s.turns, wakes (.put b) turn = false := fun turn hmem => by
    match turn with
    | .txFree true => exact absurd rfl (hturns _ hmem)
    | .txFree false | .consumer | .producer | .arrive _ => rfl
  have hstart : Waiting w (.put b) s.cmds s :=
    ⟨hi, hheld, rfl, hdec, (waits_put_iff b s).2 ⟨ha, htx⟩, hasleep⟩
  obtain ⟨t, hrun, hw, hrsp⟩ := hstart.runFor_next n
  obtain ⟨ha', htx'⟩ := (waits_put_iff b t).1 hw.waits
  exact ⟨t, hrun, hw.held, hw.cmds, ha', htx', hrsp⟩

/-- Settles O57: every state of the run is a `Waiting` one, with the ring's content of the first. -/
theorem waitingGet1IsNeverAnswered : Obligations.WaitingGet1IsNeverAnswered := by
  intro n s w hi ha hrx hheld hdec hturns
  have hasleep : ∀ turn ∈ s.turns, wakes (.get1 true) turn = false := fun turn hmem => by
    match turn with
    | .arrive b => exact absurd hmem (hturns b)
    | .txFree _ | .consumer | .producer => rfl
  have hstart : Waiting w (.get1 true) s.cmds s :=
    ⟨hi, hheld, rfl, hdec, (waits_get1_iff s).2 ⟨ha, hrx⟩, hasleep⟩
  obtain ⟨t, hrun, hw, hrsp⟩ := hstart.runFor_next n
  obtain ⟨ha', hrx'⟩ := (waits_get1_iff t).1 hw.waits
  exact ⟨t, hrun, hw.held, hw.cmds, ha', hrx', hstart.get1_runFor_contents n hrun, hrsp⟩

/-! ### The stale counter (R225) -/

/-- A removal that takes a terminator leaves fewer of them. -/
theorem RingInv.residentTerms_dropOldest_lt (hi : RingInv s) {k : Nat} (hk : k ≤ s.count)
    (hterm : s.eom ∈ s.contents.take k) : (s.dropOldest k).residentTerms < s.residentTerms := by
  have hsum := hi.residentTerms_dropOldest hk
  have htaken : 0 < (s.contents.take k).count s.eom := List.count_pos_iff.2 hterm
  omega

/-- Taking `n` bytes of `Q` takes as many as there are. -/
theorem RingInv.take_min_count (hi : RingInv s) (n : Nat) :
    s.contents.take (min n s.count) = s.contents.take n := by
  rw [← hi.contents_length, ← List.take_eq_take_min]

/-- Settles O40: GET and POP1 remove the bytes and leave the counter. -/
theorem drainedTerminatorLeavesCounterStale : Obligations.DrainedTerminatorLeavesCounterStale := by
  intro s hi ha hmsgs
  refine ⟨fun n hterm => ⟨_, hi.exec_get_active n ha, rfl, ?_⟩,
    fun q hq => ⟨_, hi.execPop1_cons ha hq, rfl, ?_⟩⟩
  · rw [← hi.take_min_count] at hterm
    exact (hi.residentTerms_dropOldest_lt (Nat.min_le_right ..) hterm).trans_eq hmsgs.symm
  · have hk : 1 ≤ s.count := by rw [← hi.contents_length, hq]; simp
    have hterm : s.eom ∈ s.contents.take 1 := by simp [hq]
    exact (hi.residentTerms_dropOldest_lt hk hterm).trans_eq hmsgs.symm

/-! ### The full ring without a terminator (R226) -/

/-- Settles O52: RXEVT and GETMSG in the case of theirs that the stall is, then the two ways out. -/
theorem fullRingWithoutTerminatorStalls : Obligations.FullRingWithoutTerminatorStalls := by
  intro s hi ha hfull hterm
  refine ⟨fun hrx => exec_rxevt_full (hi.evtReq hrx) hfull,
    fun n => hi.exec_getmsg_missing n ha hterm, ⟨_, rfl, contents_of_count_zero rfl⟩,
    fun n hn => ⟨_, hi.exec_get_active n ha, ?_, rfl⟩⟩
  have hpos := s.cfg.capacity_pos
  have hroom : s.count - min n s.count < s.cfg.capacity := by omega
  exact hroom

end

end Sys2Proof.Machine
